-- ==== Sys2Proof/Config.lean ====
section
/-! DEFINITION. What an implementation of the block fixes when it is built (spec/00_scope.md R7 to R11), and the one
free value of the model (spec/44_text_parser.md R106). -/

namespace Sys2Proof

/-- The OPEN parameters of the block. A machine state carries them (log entry 1); nothing a command does changes
them (R29: "fixed when the block is built and are not registers"), and the statements hold for every value. -/
structure Params where
  /-- `LMAX` (R7): the most lanes that ports A, B and R hold. -/
  lmax : Nat
  /-- `NBITS` (R8): the width of the shift-count port `SHAMT`. -/
  nbits : Nat
  /-- `SMAX` (R10): the most octets that port S holds. -/
  smax : Nat
  /-- `HAS_PARSER` (R9): whether the Text Parser and its opcode exist. -/
  hasParser : Bool
  /-- `PARSE_VALIDATION_MAY_FAIL` (R11): whether the parser may report `VALIDATION_FAILURE`. -/
  parseValidationMayFail : Bool
deriving DecidableEq, Repr

/-- `LEN_BITS = ceil(log2(LMAX + 1))`, the width of `ALEN`, `BLEN` and `RLEN` (R7). -/
def Params.lenBits (p : Params) : Nat := Nat.clog 2 (p.lmax + 1)

/-- `ceil(log2(SMAX + 1))`, the width of `SLEN` (R10). -/
def Params.slenBits (p : Params) : Nat := Nat.clog 2 (p.smax + 1)

/-- What the spec requires of the parameters: `LMAX` and `NBITS` at least 1 (R7, R8) and, where there is a parser,
`SMAX <= 8*LMAX` (R10). -/
abbrev Params.Valid (p : Params) : Prop :=
  1 ≤ p.lmax ∧ 1 ≤ p.nbits ∧ (p.hasParser = true → p.smax ≤ 8 * p.lmax)

/-- The parameters of the reset state: those that spec/95_test_vectors.md takes for its vectors, with the default of
R11. DESIGN CHOICE (log entry 1): the spec leaves them OPEN. -/
def Params.vectors : Params where
  lmax := 8
  nbits := 16
  smax := 64
  hasParser := true
  parseValidationMayFail := false

/-- The free draw of R106: whether the `k`-th draw of a run finds the parser's validator broken. No body: nothing can
evaluate it or prove a value of it (log entry 3). -/
opaque Config.validationDraw (k : Nat) : Bool

end Sys2Proof
end

