-- ==== Sys2Proof/Word.lean ====
section
/-! DEFINITION. The byte, and the byte sequence (spec/00_scope.md R12, R13). -/

namespace Sys2Proof

/-- A byte: an 8-bit unsigned value, bit 7 the most significant (R13, R37). -/
abbrev Byte := BitVec 8

/-- A sequence `<s[0], …, s[L-1]>`: element 0 is the most significant byte, the recorded length is the
number of elements (R13, R16 "Recorded length", R35). `[]` is the empty sequence `<>`. -/
abbrev ByteSeq := List Byte

end Sys2Proof
end

