-- ==== Sys2Proof/Syntax.lean ====
section
/-! DEFINITION. The command: its decoded form `Instr`, one constructor per row of spec/opcode_table.json, and the
request ports that carry it (spec/30_encoding.md R51, R54, R58; spec/10_state.md R20). -/

namespace Sys2Proof

/-- A command with the operands its opcode reads (R54: the operands are the ports' values). -/
inductive Instr where
  /-- `B.AND a, b` (R67). -/
  | bAnd (a b : Byte)
  /-- `B.OR a, b` (R68). -/
  | bOr (a b : Byte)
  /-- `B.XOR a, b` (R69). -/
  | bXor (a b : Byte)
  /-- `B.NOT a` (R70). -/
  | bNot (a : Byte)
  /-- `B.SHL a, n` (R71). -/
  | bShl (a : Byte) (n : Nat)
  /-- `B.SHR a, n` (R72). -/
  | bShr (a : Byte) (n : Nat)
  /-- `S.AND x, y` (R77). -/
  | sAnd (x y : ByteSeq)
  /-- `S.OR x, y` (R78). -/
  | sOr (x y : ByteSeq)
  /-- `S.XOR x, y` (R79). -/
  | sXor (x y : ByteSeq)
  /-- `S.NOT x` (R80). -/
  | sNot (x : ByteSeq)
  /-- `S.SHL x, n` (R87). -/
  | sShl (x : ByteSeq) (n : Nat)
  /-- `S.SHR x, n` (R92). -/
  | sShr (x : ByteSeq) (n : Nat)
  /-- `PARSE str` (R99): `str` is the string, one octet a character. -/
  | parse (str : ByteSeq)
deriving DecidableEq, Repr

/-- The three ports that carry a length field and lanes (R20). -/
inductive PortName where
  | a
  | b
  | s
deriving DecidableEq, Repr

/-- The value on a port with a length field: the field, and the lanes `0, 1, …` of the port. The lanes at `len` or
above are not part of the operand (R21). -/
structure SeqPort where
  len : Nat
  lanes : List Byte
deriving DecidableEq, Repr

/-- The request ports (R20): the values the host drives. The block reads them and never writes them (R42). -/
structure Ports where
  /-- `OP`, the 8-bit opcode. -/
  op : Byte
  /-- `BA`, byte operand `a`. -/
  ba : Byte
  /-- `BB`, byte operand `b`. -/
  bb : Byte
  /-- `SHAMT`, the unsigned shift count: `NBITS` bits wide. -/
  shamt : Nat
  /-- Port A: `ALEN` and the lanes. -/
  a : SeqPort
  /-- Port B: `BLEN` and the lanes. -/
  b : SeqPort
  /-- Port S: `SLEN` and the octets. It exists only where there is a parser. -/
  s : SeqPort
deriving DecidableEq, Repr

/-- A port of `n` lanes, all zero, presenting the empty sequence. -/
def SeqPort.zero (n : Nat) : SeqPort := ⟨0, List.replicate n 0⟩

/-- All request ports at zero, with as many lanes as the parameters give them. -/
def Ports.zero (p : Params) : Ports where
  op := 0
  ba := 0
  bb := 0
  shamt := 0
  a := SeqPort.zero p.lmax
  b := SeqPort.zero p.lmax
  s := SeqPort.zero p.smax

end Sys2Proof
end

