-- ==== Sys2Proof/WellFormed.lean ====
section
/-! DEFINITION. Which commands the ports of a block with given parameters can carry: lengths within `LMAX` and `SMAX`
(spec/10_state.md R31), counts within `NBITS` bits (spec/00_scope.md R8), `PARSE` only with a parser (R9, R61). -/

namespace Sys2Proof

/-- The sequence fits on port A or B (R31, R56). -/
def seqFits (p : Params) (x : ByteSeq) : Bool := decide (x.length ≤ p.lmax)

/-- The count fits on `SHAMT` (R8: `n` takes every value `0 .. 2^NBITS - 1`). -/
def countFits (p : Params) (n : Nat) : Bool := decide (n < 2 ^ p.nbits)

/-- The string fits on port S (R31, R57). -/
def stringFits (p : Params) (x : ByteSeq) : Bool := decide (x.length ≤ p.smax)

/-- The command can be presented to a block with parameters `p` as an instruction of the opcode map. -/
def Instr.wellFormed (p : Params) : Instr → Bool
  | .bAnd _ _ => true
  | .bOr _ _ => true
  | .bXor _ _ => true
  | .bNot _ => true
  | .bShl _ n => countFits p n
  | .bShr _ n => countFits p n
  | .sAnd x y => seqFits p x && seqFits p y
  | .sOr x y => seqFits p x && seqFits p y
  | .sXor x y => seqFits p x && seqFits p y
  | .sNot x => seqFits p x
  | .sShl x n => seqFits p x && countFits p n
  | .sShr x n => seqFits p x && countFits p n
  | .parse str => p.hasParser && stringFits p str

end Sys2Proof
end

