-- ==== Sys2Proof/Decode.lean ====
section
/-! DEFINITION. From the request ports to a command and back (spec/30_encoding.md R51 to R62; the order of the checks is
spec/60_exceptions.md R116, steps 1 and 2). -/

namespace Sys2Proof

/-- Why a request is not a command of the opcode map. -/
inductive Reject where
  /-- The opcode is outside the map, or is `PARSE`'s in a block without a parser (R59, R61). -/
  | illegalOp
  /-- A length field that the opcode reads is out of range (R31). -/
  | lengthOutOfRange (port : PortName)
  /-- The shift count that the opcode reads does not fit in `NBITS` bits (R8, R55). -/
  | countOutOfRange
deriving DecidableEq, Repr

/-- `OP[7:4]`, the `UNIT` field (R51, R52). -/
def opUnit (op : Byte) : Nat := (op.extractLsb' 4 4).toNat

/-- `OP[3:0]`, the `FUNC` field (R51, R53). -/
def opFunc (op : Byte) : Nat := (op.extractLsb' 0 4).toNat

/-- An opcode from its two fields (R51). -/
def opcodeOf (unit func : Nat) : Byte := BitVec.ofNat 4 unit ++ BitVec.ofNat 4 func

/-- The operand on a port with a length field: its first `len` lanes (R21, R56, R57). A length above the port's bound
cannot be presented (R31), nor a length above the lanes the port carries (log entry 6). -/
def seqOperand (bound : Nat) (port : PortName) (q : SeqPort) : Except Reject ByteSeq :=
  if q.len ≤ bound ∧ q.len ≤ q.lanes.length then .ok (q.lanes.take q.len)
  else .error (.lengthOutOfRange port)

/-- The shift count: `n = zext(SHAMT)` (R55). A number of more than `NBITS` bits cannot be presented (R8; log entry 5). -/
def countOperand (p : Params) (shamt : Nat) : Except Reject Nat :=
  if shamt < 2 ^ p.nbits then .ok shamt else .error .countOutOfRange

/-- Operand form "byte and count" (R54). -/
def byteAndCount (p : Params) (r : Ports) (mk : Byte → Nat → Instr) : Except Reject Instr := do
  let n ← countOperand p r.shamt
  pure (mk r.ba n)

/-- Operand form "two sequences" (R54). -/
def twoSequences (p : Params) (r : Ports) (mk : ByteSeq → ByteSeq → Instr) : Except Reject Instr := do
  let x ← seqOperand p.lmax .a r.a
  let y ← seqOperand p.lmax .b r.b
  pure (mk x y)

/-- Operand form "one sequence" (R54). -/
def oneSequence (p : Params) (r : Ports) (mk : ByteSeq → Instr) : Except Reject Instr := do
  let x ← seqOperand p.lmax .a r.a
  pure (mk x)

/-- Operand form "sequence and count" (R54). -/
def sequenceAndCount (p : Params) (r : Ports) (mk : ByteSeq → Nat → Instr) : Except Reject Instr := do
  let x ← seqOperand p.lmax .a r.a
  let n ← countOperand p r.shamt
  pure (mk x n)

/-- Operand form "one string" (R54). -/
def oneString (p : Params) (r : Ports) (mk : ByteSeq → Instr) : Except Reject Instr := do
  let x ← seqOperand p.smax .s r.s
  pure (mk x)

/-- The decoder, over the opcode map of R58: total, all 8 bits of `OP` matched, every other opcode illegal (R59, R60).
The opcode is decoded first; only then are the ports it uses read (R116). -/
def decode (p : Params) (r : Ports) : Except Reject Instr :=
  match opUnit r.op, opFunc r.op with
  | 0, 0 => .ok (.bAnd r.ba r.bb)
  | 0, 1 => .ok (.bOr r.ba r.bb)
  | 0, 2 => .ok (.bXor r.ba r.bb)
  | 0, 3 => .ok (.bNot r.ba)
  | 0, 4 => byteAndCount p r .bShl
  | 0, 5 => byteAndCount p r .bShr
  | 1, 0 => twoSequences p r .sAnd
  | 1, 1 => twoSequences p r .sOr
  | 1, 2 => twoSequences p r .sXor
  | 1, 3 => oneSequence p r .sNot
  | 1, 4 => sequenceAndCount p r .sShl
  | 1, 5 => sequenceAndCount p r .sShr
  | 2, 0 => if p.hasParser then oneString p r .parse else .error .illegalOp
  | _, _ => .error .illegalOp

/-- The opcode of an instruction (R58). -/
def Instr.opcode : Instr → Byte
  | .bAnd _ _ => opcodeOf 0 0
  | .bOr _ _ => opcodeOf 0 1
  | .bXor _ _ => opcodeOf 0 2
  | .bNot _ => opcodeOf 0 3
  | .bShl _ _ => opcodeOf 0 4
  | .bShr _ _ => opcodeOf 0 5
  | .sAnd _ _ => opcodeOf 1 0
  | .sOr _ _ => opcodeOf 1 1
  | .sXor _ _ => opcodeOf 1 2
  | .sNot _ => opcodeOf 1 3
  | .sShl _ _ => opcodeOf 1 4
  | .sShr _ _ => opcodeOf 1 5
  | .parse _ => opcodeOf 2 0

/-- A sequence put on a port: the length field and the lanes below it are written, the lanes above are left (R21). -/
def SeqPort.load (q : SeqPort) (x : ByteSeq) : SeqPort := ⟨x.length, x ++ q.lanes.drop x.length⟩

/-- The encoder onto ports that already carry something: `OP` and the ports the opcode reads are driven (R54), every
other port is left as it is. -/
def encodeOnto (r : Ports) (i : Instr) : Ports :=
  match i with
  | .bAnd a b => { r with op := i.opcode, ba := a, bb := b }
  | .bOr a b => { r with op := i.opcode, ba := a, bb := b }
  | .bXor a b => { r with op := i.opcode, ba := a, bb := b }
  | .bNot a => { r with op := i.opcode, ba := a }
  | .bShl a n => { r with op := i.opcode, ba := a, shamt := n }
  | .bShr a n => { r with op := i.opcode, ba := a, shamt := n }
  | .sAnd x y => { r with op := i.opcode, a := r.a.load x, b := r.b.load y }
  | .sOr x y => { r with op := i.opcode, a := r.a.load x, b := r.b.load y }
  | .sXor x y => { r with op := i.opcode, a := r.a.load x, b := r.b.load y }
  | .sNot x => { r with op := i.opcode, a := r.a.load x }
  | .sShl x n => { r with op := i.opcode, a := r.a.load x, shamt := n }
  | .sShr x n => { r with op := i.opcode, a := r.a.load x, shamt := n }
  | .parse str => { r with op := i.opcode, s := r.s.load str }

/-- The encoder: the command on ports that are otherwise zero. -/
def encode (p : Params) (i : Instr) : Ports := encodeOnto (Ports.zero p) i

/-- The ports that present an opcode with every operand port at zero. -/
def opcodePorts (p : Params) (op : Byte) : Ports := { Ports.zero p with op := op }

/-- The instruction the decoder reads from the table's word: an 8-bit opcode (R58), every operand port at zero. -/
def decodeTableWord (nbits w : Nat) : Option Instr :=
  if nbits = 8 ∧ w < 256 then
    match decode Params.vectors (opcodePorts Params.vectors (BitVec.ofNat 8 w)) with
    | .ok i => some i
    | .error _ => none
  else none

/-- `OP` values whose command reads `BA` (R20, last column; R54). -/
def readsBA (op : Byte) : Bool := op.toNat ≤ 0x05

/-- `OP` values whose command reads `BB`. -/
def readsBB (op : Byte) : Bool := op.toNat ≤ 0x02

/-- `OP` values whose command reads `SHAMT`. -/
def readsShamt (op : Byte) : Bool := op == 0x04 || op == 0x05 || op == 0x14 || op == 0x15

/-- `OP` values whose command reads port A. -/
def readsA (op : Byte) : Bool := 0x10 ≤ op.toNat && op.toNat ≤ 0x15

/-- `OP` values whose command reads port B. -/
def readsB (op : Byte) : Bool := 0x10 ≤ op.toNat && op.toNat ≤ 0x12

/-- `OP` values whose command reads port S: `PARSE`'s, where there is a parser. -/
def readsS (p : Params) (op : Byte) : Bool := p.hasParser && op == 0x20

/-- The opcode is in the map of R58 and names an instruction of a block with parameters `p` (R59, R61). -/
def legalOp (p : Params) (op : Byte) : Bool :=
  op.toNat ≤ 0x05 || (0x10 ≤ op.toNat && op.toNat ≤ 0x15) || (p.hasParser && op == 0x20)

/-- Two operand ports that present the same sequence: the same length field and the same lanes below it (R21). -/
abbrev SeqPort.SameOperand (q q' : SeqPort) : Prop :=
  q.len = q'.len ∧ q.lanes.take q.len = q'.lanes.take q'.len

/-- Two port valuations that agree on everything their opcode reads (R20, R21, R54). -/
abbrev Ports.SameRequest (p : Params) (r r' : Ports) : Prop :=
  r.op = r'.op ∧
  (readsBA r.op = true → r.ba = r'.ba) ∧
  (readsBB r.op = true → r.bb = r'.bb) ∧
  (readsShamt r.op = true → r.shamt = r'.shamt) ∧
  (readsA r.op = true → r.a.SameOperand r'.a) ∧
  (readsB r.op = true → r.b.SameOperand r'.b) ∧
  (readsS p r.op = true → r.s.SameOperand r'.s)

/-- Every port the opcode reads is in range: the host's duty of lengths in range (R31, R134, R139), and that the port can
carry the value, a count of at most `NBITS` bits (log entry 5) and no fewer lanes than the length field says (entry 6). -/
def Ports.inRange (p : Params) (r : Ports) : Bool :=
  (!readsShamt r.op || decide (r.shamt < 2 ^ p.nbits)) &&
  (!readsA r.op || decide (r.a.len ≤ p.lmax ∧ r.a.len ≤ r.a.lanes.length)) &&
  (!readsB r.op || decide (r.b.len ≤ p.lmax ∧ r.b.len ≤ r.b.lanes.length)) &&
  (!readsS p r.op || decide (r.s.len ≤ p.smax ∧ r.s.len ≤ r.s.lanes.length))

end Sys2Proof
end

