-- ==== Sys2Proof/Machine/Flags.lean ====
section
/-! DEFINITION. The block has no flag, condition code or predicate (spec/10_state.md R28). The only indication a command
gives is the 3-bit `STATUS`; this file holds its codes (spec/60_exceptions.md R110). -/

namespace Sys2Proof.Machine

/-- The width of `STATUS` (R12, R110). -/
abbrev StatusCode := BitVec 3

/-- 0 `OK`: the command succeeded and R holds the result. -/
def statusOk : StatusCode := 0

/-- 1 `LENGTH_MISMATCH` (R111). -/
def statusLengthMismatch : StatusCode := 1

/-- 2 `BAD_FORMAT` (R112). -/
def statusBadFormat : StatusCode := 2

/-- 3 `VALIDATION_FAILURE` (R113). -/
def statusValidationFailure : StatusCode := 3

/-- 4 `ILLEGAL_OP` (R114). -/
def statusIllegalOp : StatusCode := 4

/-- 7 `IDLE`: no command since reset (R34, R133). -/
def statusIdle : StatusCode := 7

/-- The reserved codes 5 and 6, never written (R110). -/
def reservedStatus (c : StatusCode) : Bool := c == 5 || c == 6

end Sys2Proof.Machine
end

