-- ==== Sys2Proof/Machine/State.lean ====
section
/-! DEFINITION. The state: the response latch, which is the block's only state (spec/10_state.md R22); the request ports
(R20); what the host is about to do and what it last read (spec/70_reset_and_hazards.md R139); the build parameters. -/

namespace Sys2Proof.Machine

/-- What a host can read of the latch (R22, R139). -/
inductive LatchField where
  /-- `STATUS`. -/
  | status
  /-- `RVALID`. -/
  | rvalid
  /-- `RLEN`. -/
  | rlen
  /-- Result lane `R[i]`. -/
  | lane (i : Nat)
deriving DecidableEq, Repr

/-- The response latch as the pair of R22: `result = some s` stands for `RVALID = 1`, `RLEN = len(s)`, `R[i] = s[i]`;
`result = none` stands for `RVALID = 0`, where `RLEN` and the lanes hold no value (R23). -/
structure Latch where
  status : StatusCode
  result : Option ByteSeq
deriving DecidableEq, Repr

/-- What the host does next; each is one interaction of R139. Actions land between commands, never inside one
(R18, R130). -/
inductive HostAction where
  /-- Change the values on the request ports (R20, R137). -/
  | drive (r : Ports)
  /-- Present the command that stands on the ports. -/
  | present
  /-- Read a part of the latch. -/
  | read (f : LatchField)
  /-- Assert reset. -/
  | reset
deriving DecidableEq, Repr

/-- The whole of what a step reads and writes. -/
structure State where
  /-- The build parameters (R7 to R11). -/
  params : Params
  /-- The values the host drives on the request ports (R20). -/
  ports : Ports
  /-- The response latch (R22). -/
  latch : Latch
  /-- What the host will do, first action first: any list, so every host program, and every order in which several
  requesters are served (R50), is one of them. -/
  host : List HostAction
  /-- What the host's last read gave it (R139); none before its first read. -/
  readout : Option Nat
  /-- The MODEL's own counter of free draws (R106; log entry 3). -/
  draws : Nat
deriving DecidableEq, Repr

/-- The block stops with no fault: it never traps and never hangs (R59, R119, R138), and every error is a status value
in the latch (R109). So there is no constructor. -/
inductive Fault where
deriving DecidableEq, Repr

/-- Why a step has no meaning in the model. -/
inductive Refusal where
  /-- An instruction without a meaning yet: raised by no arm of `exec`. Safe. -/
  | notModelled (mnemonic : String)
  /-- A presented command reads a length field above the port's bound: the spec refuses it (R31, R116 step 2). Raised by
  `rejectRequest`. Safe. -/
  | lengthOutOfRange (port : PortName)
  /-- A presented command reads a shift count of more than `NBITS` bits, which the port cannot carry (R8, R14). Raised by
  `rejectRequest`. Safe. -/
  | countOutOfRange
  /-- The host reads a part of the latch that holds no value (R23, R139): the spec refuses it
  (spec/93_implementation_defined.md U7). Raised by `hostRead`. Safe. -/
  | noValue (f : LatchField)
  /-- A host-side macro outside its condition (R64). Raised by `runMacro`, never by `step`. Safe. -/
  | macroCondition
  /-- A line of a host program uses a name that no result is bound to (R63). Raised by `runLine`, never by `step`.
  Safe. -/
  | unboundName
deriving DecidableEq, Repr

/-- The latch after reset: `STATUS = IDLE`, `RVALID = 0` (R34). -/
def Latch.idle : Latch := ⟨statusIdle, none⟩

/-- The machine right after reset, built with parameters `p`: the latch as R34 says; no host action waiting. The ports
are the host's to drive; zero until then (log entry 2). -/
def State.resetWith (p : Params) : State where
  params := p
  ports := Ports.zero p
  latch := Latch.idle
  host := []
  readout := none
  draws := 0

/-- The machine right after reset, with the parameters of log entry 1. -/
def State.reset : State := State.resetWith Params.vectors

end Sys2Proof.Machine
end

