-- ==== Sys2Proof/Machine/Ops.lean ====
section
/-! DEFINITION. The named operations over the latch, and the host's side of the interface. -/

namespace Sys2Proof.Machine

/-- The outcome of a step of this machine. -/
abbrev Result := Host.Outcome State Fault Refusal

/-- `respond(code, r)`: the whole latch is written at once (R14, R23). -/
def respond (code : StatusCode) (r : Option ByteSeq) (s : State) : State :=
  { s with latch := ⟨code, r⟩ }

/-- `raise <Error>`, which is `respond(<code>, none)`: this block's whole error mechanism. Nothing traps, nothing is
saved and there is nothing to return from (R14, R109, R119, R120). -/
def raiseError (code : StatusCode) (s : State) : State := respond code none s

/-- A command that succeeds: `respond(OK, r)`. -/
def complete (r : ByteSeq) (s : State) : Result := .next (respond statusOk (some r) s)

/-- A command that ends in an error. -/
def fail (code : StatusCode) (s : State) : Result := .next (raiseError code s)

/-- A presented request that is no command: an illegal opcode responds `ILLEGAL_OP` (R59, R114); an operand that the
port cannot carry is refused, with no response (R31, R116 step 2). -/
def rejectRequest (e : Reject) (s : State) : Result :=
  match e with
  | .illegalOp => fail statusIllegalOp s
  | .lengthOutOfRange port => .refused (.lengthOutOfRange port)
  | .countOutOfRange => .refused .countOutOfRange

/-- `RVALID` (R22). -/
def Latch.rvalid (l : Latch) : Bool := l.result.isSome

/-- `RLEN`, where it holds a value (R22, R23). -/
def Latch.rlen (l : Latch) : Option Nat := l.result.map List.length

/-- `R[i]`, where it holds a value (R23, R25). -/
def Latch.lane (l : Latch) (i : Nat) : Option Byte := l.result.bind (fun r => r[i]?)

/-- What reading a part of the latch gives, none where it holds no value (R23, R139). -/
def Latch.read (l : Latch) (f : LatchField) : Option Nat :=
  match f with
  | .status => some l.status.toNat
  | .rvalid => some l.rvalid.toNat
  | .rlen => l.rlen
  | .lane i => (l.lane i).map BitVec.toNat

/-- The host reads the latch: it gets the value, and the block is left as it is (R24, R41). -/
def hostRead (f : LatchField) (s : State) : Result :=
  match s.latch.read f with
  | some v => .next { s with readout := some v }
  | none => .refused (.noValue f)

/-- The reset event: the latch as after reset, and nothing else (R130). -/
def hostReset (s : State) : State := { s with latch := Latch.idle }

/-- The host changes the values on the request ports; the block does nothing (R20, R137). -/
def hostDrive (r : Ports) (s : State) : State := { s with ports := r }

/-- The host's next action is taken off its list. -/
def takeAction (rest : List HostAction) (s : State) : State := { s with host := rest }

/-- Sampling the ports with the command: what is decoded is what stands on them now (R137). -/
def fetch (s : State) : Except Reject Instr := decode s.params s.ports

/-- The ports that present a table word of `nbits` bits: the opcode, and zero on every operand port. -/
def tableWordPorts (p : Params) (nbits w : Nat) : Ports := opcodePorts p (BitVec.ofNat 8 (w % 2 ^ nbits))

end Sys2Proof.Machine
end

