-- ==== Sys2Proof/Machine/ByteOperator.lean ====
section
/-! DEFINITION. The Byte Operator, unit 0 (spec/41_byte_operator.md). Each command computes one byte and responds with it
as a one-lane sequence; none can fail and none writes a flag (R65, R66). -/

namespace Sys2Proof.Machine

/-- `a & b`, bit by bit (R67). -/
def byteAnd (a b : Byte) : Byte := a &&& b

/-- `a | b`, bit by bit (R68). -/
def byteOr (a b : Byte) : Byte := a ||| b

/-- `a ^ b`, bit by bit (R69). -/
def byteXor (a b : Byte) : Byte := a ^^^ b

/-- `~a = 255 - a`, the one's complement over 8 bits (R70). -/
def byteNot (a : Byte) : Byte := ~~~a

/-- `(a * 2^n) mod 256`; the count is never reduced (R71, R74). -/
def byteShl (a : Byte) (n : Nat) : Byte := BitVec.ofNat 8 (a.toNat * 2 ^ n)

/-- `a div 2^n`; the shift is logical and the count is never reduced (R72, R74). -/
def byteShr (a : Byte) (n : Nat) : Byte := BitVec.ofNat 8 (a.toNat / 2 ^ n)

/-- `respond(OK, <r>)`: a byte result is a one-lane sequence (R65). -/
def respondByte (r : Byte) (s : State) : Result := complete [r] s

/-- `B.AND` (R67). -/
def execBAnd (a b : Byte) (s : State) : Result := respondByte (byteAnd a b) s

/-- `B.OR` (R68). -/
def execBOr (a b : Byte) (s : State) : Result := respondByte (byteOr a b) s

/-- `B.XOR` (R69). -/
def execBXor (a b : Byte) (s : State) : Result := respondByte (byteXor a b) s

/-- `B.NOT` (R70). -/
def execBNot (a : Byte) (s : State) : Result := respondByte (byteNot a) s

/-- `B.SHL` (R71). -/
def execBShl (a : Byte) (n : Nat) (s : State) : Result := respondByte (byteShl a n) s

/-- `B.SHR` (R72). -/
def execBShr (a : Byte) (n : Nat) (s : State) : Result := respondByte (byteShr a n) s

end Sys2Proof.Machine
end

