-- ==== Sys2Proof/Machine/SequenceLogic.lean ====
section
/-! DEFINITION. The Sequence Operator's logic, unit 1 (spec/42_sequence_logic.md): the Byte Operator lane by lane, with a
length comparator in front of the two-operand operations (R75, R76). -/

namespace Sys2Proof.Machine

/-- Lane `i` of the result is `f` of lane `i` of the operands (R75, R81). -/
def laneWise (f : Byte → Byte → Byte) (x y : ByteSeq) : ByteSeq := List.zipWith f x y

/-- A two-operand operation: the lengths are compared before any lane is computed (R76). -/
def execLaneWise (f : Byte → Byte → Byte) (x y : ByteSeq) (s : State) : Result :=
  if x.length = y.length then complete (laneWise f x y) s else fail statusLengthMismatch s

/-- `~A` lane by lane (R80). -/
def seqNot (x : ByteSeq) : ByteSeq := x.map byteNot

/-- `S.AND` (R77). -/
def execSAnd (x y : ByteSeq) (s : State) : Result := execLaneWise byteAnd x y s

/-- `S.OR` (R78). -/
def execSOr (x y : ByteSeq) (s : State) : Result := execLaneWise byteOr x y s

/-- `S.XOR` (R79). -/
def execSXor (x y : ByteSeq) (s : State) : Result := execLaneWise byteXor x y s

/-- `S.NOT`: one operand, no length check, always succeeds (R80). -/
def execSNot (x : ByteSeq) (s : State) : Result := complete (seqNot x) s

end Sys2Proof.Machine
end

