-- ==== Sys2Proof/Machine/SequenceShift.lean ====
section
/-! DEFINITION. The barrel shifter, unit 1 (spec/43_sequence_shift.md). The meanings are the byte-serial algorithms of
R87 and R92; the obligations state that they compute the arithmetic definitions (R86, R91) and the lane-level forms
(R89, R94). -/

namespace Sys2Proof.Machine

/-- The left shift's pass over the lanes, last to first (R87): the result lanes, and the carry `x` out of the first
lane. -/
def shlPass (n : Nat) : ByteSeq → ByteSeq × Nat
  | [] => ([], 0)
  | y :: rest =>
    let (r, x) := shlPass n rest
    let p := x + y.toNat * 2 ^ n
    (BitVec.ofNat 8 p :: r, p / 256)

/-- `S.SHL(A, n)`: the lanes of the pass; the final carry is discarded (R87). -/
def seqShl (x : ByteSeq) (n : Nat) : ByteSeq := (shlPass n x).1

/-- The right shift's pass over the lanes, first to last, from the running remainder `x` (R92). -/
def shrPass (n : Nat) (x : Nat) : ByteSeq → ByteSeq
  | [] => []
  | y :: rest =>
    let combined := x * 256 + y.toNat
    BitVec.ofNat 8 (combined / 2 ^ n) :: shrPass n (combined % 2 ^ n) rest

/-- `S.SHR(A, n)`: the pass from remainder 0 (R92). -/
def seqShr (x : ByteSeq) (n : Nat) : ByteSeq := shrPass n 0 x

/-- `S.SHL`: always succeeds, any count (R84, R85, R87). -/
def execSShl (x : ByteSeq) (n : Nat) (s : State) : Result := complete (seqShl x n) s

/-- `S.SHR`: always succeeds, any count (R84, R85, R92). -/
def execSShr (x : ByteSeq) (n : Nat) (s : State) : Result := complete (seqShr x n) s

end Sys2Proof.Machine
end

