-- ==== Sys2Proof/Machine/TextParser.lean ====
section
/-! DEFINITION. The Text Parser, unit 2 (spec/44_text_parser.md): strip, validate, pad, partition, convert (R99). -/

namespace Sys2Proof.Machine

/-- The space character (R57, R100). PRESUMED by the spec from general knowledge (its G1). -/
def charSpace : Byte := 0x20

/-- The character `'0'` (R57). -/
def charZero : Byte := 0x30

/-- The character `'1'` (R57). -/
def charOne : Byte := 0x31

/-- The octet is `'0'` or `'1'` (R101). -/
def isDigit (c : Byte) : Bool := c == charZero || c == charOne

/-- Step 1: every space is removed, the rest keeps its order (R100). -/
def strip (str : ByteSeq) : ByteSeq := str.filter (fun c => c != charSpace)

/-- Step 2: the whole stripped string is digits; the empty string passes (R101). -/
def digitsOnly (t : ByteSeq) : Bool := t.all isDigit

/-- Step 3: `'0'` on the left up to a multiple of 8 (R102). -/
def padLeft (t : ByteSeq) : ByteSeq := List.replicate ((8 - t.length % 8) % 8) charZero ++ t

/-- A digit string read as a base-2 numeral, first digit most significant (R103, R104). -/
def binaryNumeral : ByteSeq → Nat
  | [] => 0
  | c :: t => (c.toNat - 0x30) * 2 ^ t.length + binaryNumeral t

/-- Steps 4 and 5: `m` chunks of 8 digits, each a base-2 byte, most significant chunk first (R103). -/
def convertChunks : Nat → ByteSeq → ByteSeq
  | 0, _ => []
  | m + 1, t => BitVec.ofNat 8 (binaryNumeral (t.take 8)) :: convertChunks m (t.drop 8)

/-- Steps 3 to 5 on a string of digits (R102, R103). -/
def digitsToBytes (t : ByteSeq) : ByteSeq := convertChunks ((padLeft t).length / 8) (padLeft t)

/-- The outcome of the pseudocode of R99 on a string. -/
def parseString (str : ByteSeq) (s : State) : Result :=
  if digitsOnly (strip str) then complete (digitsToBytes (strip str)) s else fail statusBadFormat s

/-- The next free draw is taken (R106; log entry 3). -/
def takeDraw (s : State) : State := { s with draws := s.draws + 1 }

/-- `PARSE` (R99). Without a parser it is an illegal opcode (R61, R98). Where the validator may fail, every command draws
freely between `VALIDATION_FAILURE` and the outcome of the pseudocode (R106, R116 step 4). -/
def execParse (str : ByteSeq) (s : State) : Result :=
  if s.params.hasParser = false then fail statusIllegalOp s
  else if s.params.parseValidationMayFail = false then parseString str s
  else if Config.validationDraw s.draws then fail statusValidationFailure (takeDraw s)
  else parseString str (takeDraw s)

end Sys2Proof.Machine
end

