-- ==== Sys2Proof/Machine/Dispatch.lean ====
section
/-! DEFINITION. One arm per instruction, each one direct call of its meaning. -/

namespace Sys2Proof.Machine

-- The meaning of an instruction in a state.
def exec (i : Instr) (s : State) : Host.Outcome State Fault Refusal :=
  match i with
  | .bAnd a b => Sys2Proof.Machine.execBAnd a b s
  | .bOr a b => Sys2Proof.Machine.execBOr a b s
  | .bXor a b => Sys2Proof.Machine.execBXor a b s
  | .bNot a => Sys2Proof.Machine.execBNot a s
  | .bShl a n => Sys2Proof.Machine.execBShl a n s
  | .bShr a n => Sys2Proof.Machine.execBShr a n s
  | .sAnd x y => Sys2Proof.Machine.execSAnd x y s
  | .sOr x y => Sys2Proof.Machine.execSOr x y s
  | .sXor x y => Sys2Proof.Machine.execSXor x y s
  | .sNot x => Sys2Proof.Machine.execSNot x s
  | .sShl x n => Sys2Proof.Machine.execSShl x n s
  | .sShr x n => Sys2Proof.Machine.execSShr x n s
  | .parse str => Sys2Proof.Machine.execParse str s

end Sys2Proof.Machine
end

