-- ==== Sys2Proof/Machine/Step.lean ====
section
/-! DEFINITION. One step: the host's next action, or nothing. -/

namespace Sys2Proof.Machine

/-- A presented command: the ports are sampled, the opcode decoded, and the command performed as one atomic step
(R18, R116, R137). -/
def performCommand (s : State) : Host.Outcome State Fault Refusal :=
  match fetch s with
  | .ok i => exec i s
  | .error e => rejectRequest e s

/-- One step. The block never acts on its own (R19): where the host does nothing, nothing changes (R24, R129). -/
def step (s : State) : Host.Outcome State Fault Refusal :=
  match s.host with
  | [] => .next s
  | .drive r :: rest => .next (hostDrive r (takeAction rest s))
  | .present :: rest => performCommand (takeAction rest s)
  | .read f :: rest => hostRead f (takeAction rest s)
  | .reset :: rest => .next (hostReset (takeAction rest s))

/-- The state in which the very next step presents the table word `w` of `nbits` bits: the word on `OP`, every operand
port at zero, and the host about to present it. -/
def State.withFetchWord (s : State) (nbits w : Nat) : State :=
  { s with ports := tableWordPorts s.params nbits w, host := .present :: s.host }

end Sys2Proof.Machine
end

