-- ==== Sys2Proof/Laws/State.lean ====
section
/-! SUPPORT. One lemma per field per update of the state: what each shared operation leaves and what it writes. -/

namespace Sys2Proof.Machine

section respond
variable (c : StatusCode) (r : Option ByteSeq) (s : State)

@[simp] theorem respond_params : (respond c r s).params = s.params := rfl
@[simp] theorem respond_ports : (respond c r s).ports = s.ports := rfl
@[simp] theorem respond_latch : (respond c r s).latch = ⟨c, r⟩ := rfl
@[simp] theorem respond_host : (respond c r s).host = s.host := rfl
@[simp] theorem respond_readout : (respond c r s).readout = s.readout := rfl
@[simp] theorem respond_draws : (respond c r s).draws = s.draws := rfl

end respond

section raiseError
variable (c : StatusCode) (s : State)

@[simp] theorem raiseError_params : (raiseError c s).params = s.params := rfl
@[simp] theorem raiseError_ports : (raiseError c s).ports = s.ports := rfl
@[simp] theorem raiseError_latch : (raiseError c s).latch = ⟨c, none⟩ := rfl
@[simp] theorem raiseError_host : (raiseError c s).host = s.host := rfl
@[simp] theorem raiseError_readout : (raiseError c s).readout = s.readout := rfl
@[simp] theorem raiseError_draws : (raiseError c s).draws = s.draws := rfl

end raiseError

section hostReset
variable (s : State)

@[simp] theorem hostReset_params : (hostReset s).params = s.params := rfl
@[simp] theorem hostReset_ports : (hostReset s).ports = s.ports := rfl
@[simp] theorem hostReset_latch : (hostReset s).latch = Latch.idle := rfl
@[simp] theorem hostReset_host : (hostReset s).host = s.host := rfl
@[simp] theorem hostReset_readout : (hostReset s).readout = s.readout := rfl
@[simp] theorem hostReset_draws : (hostReset s).draws = s.draws := rfl

end hostReset

section hostDrive
variable (r : Ports) (s : State)

@[simp] theorem hostDrive_params : (hostDrive r s).params = s.params := rfl
@[simp] theorem hostDrive_ports : (hostDrive r s).ports = r := rfl
@[simp] theorem hostDrive_latch : (hostDrive r s).latch = s.latch := rfl
@[simp] theorem hostDrive_host : (hostDrive r s).host = s.host := rfl
@[simp] theorem hostDrive_readout : (hostDrive r s).readout = s.readout := rfl
@[simp] theorem hostDrive_draws : (hostDrive r s).draws = s.draws := rfl

end hostDrive

section takeAction
variable (rest : List HostAction) (s : State)

@[simp] theorem takeAction_params : (takeAction rest s).params = s.params := rfl
@[simp] theorem takeAction_ports : (takeAction rest s).ports = s.ports := rfl
@[simp] theorem takeAction_latch : (takeAction rest s).latch = s.latch := rfl
@[simp] theorem takeAction_host : (takeAction rest s).host = rest := rfl
@[simp] theorem takeAction_readout : (takeAction rest s).readout = s.readout := rfl
@[simp] theorem takeAction_draws : (takeAction rest s).draws = s.draws := rfl

end takeAction

section takeDraw
variable (s : State)

@[simp] theorem takeDraw_params : (takeDraw s).params = s.params := rfl
@[simp] theorem takeDraw_ports : (takeDraw s).ports = s.ports := rfl
@[simp] theorem takeDraw_latch : (takeDraw s).latch = s.latch := rfl
@[simp] theorem takeDraw_host : (takeDraw s).host = s.host := rfl
@[simp] theorem takeDraw_readout : (takeDraw s).readout = s.readout := rfl
@[simp] theorem takeDraw_draws : (takeDraw s).draws = s.draws + 1 := rfl

end takeDraw

end Sys2Proof.Machine
end

