-- ==== Sys2Proof/Laws/Ops.lean ====
section
/-! SUPPORT. Each shared operation, once: everything it can answer. -/

namespace Sys2Proof.Machine

@[simp] theorem complete_eq_next (r : ByteSeq) (s t : State) :
    complete r s = .next t ↔ respond statusOk (some r) s = t := by
  simp [complete]

@[simp] theorem fail_eq_next (c : StatusCode) (s t : State) : fail c s = .next t ↔ raiseError c s = t := by
  simp [fail]

/-- Every meaning ends in one `respond`, on the state it was given or, for `PARSE` in a block with a parser whose
validator may fail, on that state with a free draw taken. -/
theorem exec_responds (i : Instr) (s : State) :
    ∃ c r s', exec i s = .next (respond c r s') ∧
      (s' = s ∨ (∃ str, i = .parse str) ∧ s.params.hasParser = true ∧ s.params.parseValidationMayFail = true ∧
        s' = takeDraw s) := by
  cases i with
  | parse str =>
    simp only [exec, execParse, parseString]
    by_cases hf : s.params.parseValidationMayFail = true
    · split
      · exact ⟨_, _, s, rfl, .inl rfl⟩
      · next hp =>
        simp only [Bool.not_eq_false] at hp
        split
        · simp_all
        · split
          · exact ⟨_, _, takeDraw s, rfl, .inr ⟨⟨str, rfl⟩, hp, hf, rfl⟩⟩
          · split <;> exact ⟨_, _, takeDraw s, rfl, .inr ⟨⟨str, rfl⟩, hp, hf, rfl⟩⟩
    · simp only [Bool.not_eq_true] at hf
      simp only [hf, if_true]
      split
      · exact ⟨_, _, s, rfl, .inl rfl⟩
      · split <;> exact ⟨_, _, s, rfl, .inl rfl⟩
  | sAnd x y | sOr x y | sXor x y =>
    simp only [exec, execSAnd, execSOr, execSXor, execLaneWise]
    split <;> exact ⟨_, _, s, rfl, .inl rfl⟩
  | _ => exact ⟨_, _, s, rfl, .inl rfl⟩

/-- No meaning reads the latch (R17, R24). -/
theorem exec_latch (i : Instr) (s : State) (l : Latch) : exec i { s with latch := l } = exec i s := by cases i <;> rfl

/-- What a rejected request can answer. -/
theorem rejectRequest_cases (e : Reject) (s : State) :
    (e = .illegalOp ∧ rejectRequest e s = .next (raiseError statusIllegalOp s)) ∨
    (∃ q, e = .lengthOutOfRange q ∧ rejectRequest e s = .refused (.lengthOutOfRange q)) ∨
    (e = .countOutOfRange ∧ rejectRequest e s = .refused .countOutOfRange) := by
  cases e with
  | illegalOp => exact .inl ⟨rfl, rfl⟩
  | lengthOutOfRange q => exact .inr (.inl ⟨q, rfl, rfl⟩)
  | countOutOfRange => exact .inr (.inr ⟨rfl, rfl⟩)

/-- What a read of the latch can answer. -/
theorem hostRead_cases (f : LatchField) (s : State) :
    (∃ v, s.latch.read f = some v ∧ hostRead f s = .next { s with readout := some v }) ∨
    (s.latch.read f = none ∧ hostRead f s = .refused (.noValue f)) := by
  unfold hostRead
  cases h : s.latch.read f with
  | none => exact .inr ⟨rfl, rfl⟩
  | some v => exact .inl ⟨v, rfl, rfl⟩

/-- A presented command that gives a next state: either an instruction ran, or the opcode was illegal. -/
theorem performCommand_next {s t : State} (h : performCommand s = .next t) :
    (∃ i, decode s.params s.ports = .ok i ∧ exec i s = .next t) ∨
    (decode s.params s.ports = .error .illegalOp ∧ t = raiseError statusIllegalOp s) := by
  unfold performCommand fetch at h
  split at h
  · next i hd => exact .inl ⟨i, hd, h⟩
  · next e hd =>
    cases e with
    | illegalOp =>
      simp only [rejectRequest, fail_eq_next] at h
      exact .inr ⟨hd, h.symm⟩
    | lengthOutOfRange q => simp [rejectRequest] at h
    | countOutOfRange => simp [rejectRequest] at h

/-- A step that gives a next state: which host action it was, and what it did. -/
theorem step_next {s t : State} (h : step s = .next t) :
    (s.host = [] ∧ t = s) ∨
    (∃ r rest, s.host = .drive r :: rest ∧ t = hostDrive r (takeAction rest s)) ∨
    (∃ rest, s.host = .present :: rest ∧ performCommand (takeAction rest s) = .next t) ∨
    (∃ f rest v, s.host = .read f :: rest ∧ s.latch.read f = some v ∧
      t = { takeAction rest s with readout := some v }) ∨
    (∃ rest, s.host = .reset :: rest ∧ t = hostReset (takeAction rest s)) := by
  unfold step at h
  split at h
  · next hh => exact .inl ⟨hh, by simpa using h.symm⟩
  · next r rest hh => exact .inr (.inl ⟨r, rest, hh, by simpa using h.symm⟩)
  · next rest hh => exact .inr (.inr (.inl ⟨rest, hh, h⟩))
  · next f rest hh =>
    rcases hostRead_cases f (takeAction rest s) with ⟨v, hv, hr⟩ | ⟨_, hr⟩
    · rw [hr] at h
      exact .inr (.inr (.inr (.inl ⟨f, rest, v, hh, hv, by simpa using h.symm⟩)))
    · simp [hr] at h
  · next rest hh => exact .inr (.inr (.inr (.inr ⟨rest, hh, by simpa using h.symm⟩)))

theorem step_present {s : State} {rest : List HostAction} (h : s.host = .present :: rest) :
    step s = performCommand (takeAction rest s) := by
  simp only [step, h]

end Sys2Proof.Machine
end

