-- ==== Sys2Proof/Machine/Numeral.lean ====
section
/-! DEFINITION. Sequences as big-endian integers (spec/00_scope.md R13, spec/20_memory.md R35). -/

namespace Sys2Proof.Machine

/-- `val(s)`: the big-endian unsigned integer a sequence denotes (R13). -/
def val : ByteSeq → Nat
  | [] => 0
  | b :: s => b.toNat * 256 ^ s.length + val s

/-- `seq_L(v)`: lane `i` is `(v div 256^(L-1-i)) mod 256` (R13). -/
def seqOf : Nat → Nat → ByteSeq
  | 0, _ => []
  | L + 1, v => BitVec.ofNat 8 (v / 256 ^ L) :: seqOf L v

/-- The all-zero sequence of `L` lanes. -/
def zeroSeq (L : Nat) : ByteSeq := List.replicate L 0

/-- `A'[j]` of R89: lane `j`, and 0 where there is no such lane. -/
def laneOr0 (x : ByteSeq) (j : Nat) : Byte := x.getD j 0

end Sys2Proof.Machine
end

