-- ==== Sys2Proof/Laws/Numeral.lean ====
section
/-! SUPPORT. Sequences as integers (R13): `val` and `seq_L` undo each other, and how `val` reads a longer sequence. -/

namespace Sys2Proof.Machine

@[simp] theorem val_nil : val [] = 0 := rfl

@[simp] theorem val_cons (b : Byte) (s : ByteSeq) : val (b :: s) = b.toNat * 256 ^ s.length + val s := rfl

@[simp] theorem seqOf_zero (v : Nat) : seqOf 0 v = [] := rfl

theorem seqOf_succ (L v : Nat) : seqOf (L + 1) v = BitVec.ofNat 8 (v / 256 ^ L) :: seqOf L v := rfl

theorem pow_two_mul_eight (L : Nat) : 2 ^ (8 * L) = 256 ^ L := by
  rw [pow_mul]
  norm_num

theorem val_lt (s : ByteSeq) : val s < 256 ^ s.length := by
  induction s with
  | nil => simp
  | cons b s ih =>
    have hb : b.toNat < 256 := b.isLt
    rw [val_cons, List.length_cons, pow_succ]
    nlinarith

theorem val_append (x y : ByteSeq) : val (x ++ y) = val x * 256 ^ y.length + val y := by
  induction x with
  | nil => simp
  | cons b x ih =>
    simp only [List.cons_append, val_cons, ih, List.length_append, pow_add]
    ring

@[simp] theorem seqOf_length (L v : Nat) : (seqOf L v).length = L := by
  induction L with
  | zero => rfl
  | succ L ih => simp [seqOf_succ, ih]

/-- Only the low `8L` bits of `v` reach the `L` lanes. -/
theorem seqOf_mod (L v : Nat) : seqOf L (v % 256 ^ L) = seqOf L v := by
  suffices h : ∀ k L v, L ≤ k → seqOf L (v % 256 ^ k) = seqOf L v from h L L v le_rfl
  intro k L
  induction L with
  | zero => simp
  | succ L ih =>
    intro v hk
    obtain ⟨d, rfl⟩ := Nat.exists_eq_add_of_le hk
    rw [seqOf_succ, seqOf_succ, ih v (by omega)]
    congr 1
    have hpow : 256 ^ (L + 1 + d) = 256 ^ L * (256 * 256 ^ d) := by ring
    apply BitVec.eq_of_toNat_eq
    rw [BitVec.toNat_ofNat, BitVec.toNat_ofNat, hpow, Nat.mod_mul_right_div_self, Nat.mod_mul_right_mod]

theorem val_seqOf (L v : Nat) : val (seqOf L v) = v % 256 ^ L := by
  induction L with
  | zero => simp [Nat.mod_one]
  | succ L ih =>
    rw [seqOf_succ, val_cons, seqOf_length, ih, BitVec.toNat_ofNat]
    have h2 : (2 : Nat) ^ 8 = 256 := by norm_num
    rw [h2, pow_succ, Nat.mod_mul, Nat.mul_comm, Nat.add_comm]

theorem seqOf_val (s : ByteSeq) : seqOf s.length (val s) = s := by
  induction s with
  | nil => rfl
  | cons b s ih =>
    have hb : b.toNat < 256 := b.isLt
    have hlt := val_lt s
    have hpos : 0 < 256 ^ s.length := Nat.pos_of_ne_zero (by positivity)
    rw [List.length_cons, seqOf_succ, val_cons]
    congr 1
    · rw [Nat.add_comm, Nat.add_mul_div_right _ _ hpos, Nat.div_eq_of_lt hlt]
      simp
    · conv_rhs => rw [← ih]
      rw [← seqOf_mod s.length (b.toNat * 256 ^ s.length + val s), Nat.add_comm, Nat.add_mul_mod_self_right,
        Nat.mod_eq_of_lt hlt]

/-- Two sequences of one length with one value are one sequence. -/
theorem eq_of_val_eq {x y : ByteSeq} (hl : x.length = y.length) (hv : val x = val y) : x = y := by
  rw [← seqOf_val x, ← seqOf_val y, hl, hv]

@[simp] theorem zeroSeq_length (L : Nat) : (zeroSeq L).length = L := by simp [zeroSeq]

@[simp] theorem val_zeroSeq (L : Nat) : val (zeroSeq L) = 0 := by
  induction L with
  | zero => rfl
  | succ L ih => simpa [zeroSeq, List.replicate_succ] using ih

end Sys2Proof.Machine
end

