-- ==== Sys2Proof/Laws/Parser.lean ====
section
/-! SUPPORT. The parser's steps: lengths and values. -/

namespace Sys2Proof.Machine

theorem strip_length_le (str : ByteSeq) : (strip str).length ≤ str.length := List.length_filter_le _ _

@[simp] theorem strip_strip (str : ByteSeq) : strip (strip str) = strip str := by simp [strip]

/-- Padding rounds the length up to a multiple of 8 (R102). -/
theorem padLeft_length (t : ByteSeq) : (padLeft t).length = 8 * ((t.length + 7) / 8) := by
  simp only [padLeft, List.length_append, List.length_replicate]
  omega

theorem binaryNumeral_append (x y : ByteSeq) :
    binaryNumeral (x ++ y) = binaryNumeral x * 2 ^ y.length + binaryNumeral y := by
  induction x with
  | nil => simp [binaryNumeral]
  | cons c x ih =>
    simp only [List.cons_append, binaryNumeral, ih, List.length_append, pow_add]
    ring

/-- Leading `'0'` characters do not change the value (R102: a semantic zero-extension). -/
theorem binaryNumeral_zeros (k : Nat) : binaryNumeral (List.replicate k charZero) = 0 := by
  induction k with
  | zero => rfl
  | succ k ih =>
    rw [List.replicate_succ, binaryNumeral, ih]
    simp [charZero]

theorem binaryNumeral_padLeft (t : ByteSeq) : binaryNumeral (padLeft t) = binaryNumeral t := by
  simp [padLeft, binaryNumeral_append, binaryNumeral_zeros]

@[simp] theorem convertChunks_length (m : Nat) (t : ByteSeq) : (convertChunks m t).length = m := by
  induction m generalizing t with
  | zero => rfl
  | succ m ih => simp [convertChunks, ih]

/-- The result has `ceil(k/8)` lanes for `k` digits (R104). -/
@[simp] theorem digitsToBytes_length (t : ByteSeq) : (digitsToBytes t).length = (t.length + 7) / 8 := by
  simp [digitsToBytes, padLeft_length]

end Sys2Proof.Machine
end

