-- ==== Sys2Proof/Laws/Decode.lean ====
section
/-! SUPPORT. The decoder and the operand forms, once each. -/

namespace Sys2Proof

theorem seqOperand_ok {bound : Nat} {port : PortName} {q : SeqPort} {x : ByteSeq} :
    seqOperand bound port q = .ok x ↔ q.len ≤ bound ∧ q.len ≤ q.lanes.length ∧ x = q.lanes.take q.len := by
  unfold seqOperand
  split
  · simp_all [eq_comm]
  · simp_all

theorem seqOperand_error {bound : Nat} {port : PortName} {q : SeqPort} {e : Reject} :
    seqOperand bound port q = .error e ↔
      ¬ (q.len ≤ bound ∧ q.len ≤ q.lanes.length) ∧ e = .lengthOutOfRange port := by
  unfold seqOperand
  split <;> simp_all [eq_comm]

theorem countOperand_ok {p : Params} {k n : Nat} : countOperand p k = .ok n ↔ k < 2 ^ p.nbits ∧ n = k := by
  unfold countOperand
  split <;> simp_all [eq_comm]

theorem countOperand_error {p : Params} {k : Nat} {e : Reject} :
    countOperand p k = .error e ↔ ¬ k < 2 ^ p.nbits ∧ e = .countOutOfRange := by
  unfold countOperand
  split <;> simp_all [eq_comm]

theorem byteAndCount_ok {p : Params} {r : Ports} {mk : Byte → Nat → Instr} {i : Instr} :
    byteAndCount p r mk = .ok i ↔ r.shamt < 2 ^ p.nbits ∧ i = mk r.ba r.shamt := by
  unfold byteAndCount
  cases h : countOperand p r.shamt with
  | error e =>
    have := (countOperand_error.mp h).1
    simp [bind, Except.bind, this]
  | ok n =>
    obtain ⟨hn, rfl⟩ := countOperand_ok.mp h
    simp [bind, Except.bind, pure, Except.pure, hn, eq_comm]

theorem twoSequences_ok {p : Params} {r : Ports} {mk : ByteSeq → ByteSeq → Instr} {i : Instr} :
    twoSequences p r mk = .ok i ↔
      (r.a.len ≤ p.lmax ∧ r.a.len ≤ r.a.lanes.length) ∧ (r.b.len ≤ p.lmax ∧ r.b.len ≤ r.b.lanes.length) ∧
        i = mk (r.a.lanes.take r.a.len) (r.b.lanes.take r.b.len) := by
  unfold twoSequences
  cases ha : seqOperand p.lmax .a r.a with
  | error e =>
    have := (seqOperand_error.mp ha).1
    simp only [bind, Except.bind, reduceCtorEq, false_iff]
    tauto
  | ok x =>
    obtain ⟨h1, h2, rfl⟩ := seqOperand_ok.mp ha
    cases hb : seqOperand p.lmax .b r.b with
    | error e =>
      have := (seqOperand_error.mp hb).1
      simp only [bind, Except.bind, reduceCtorEq, false_iff]
      tauto
    | ok y =>
      obtain ⟨h3, h4, rfl⟩ := seqOperand_ok.mp hb
      simp [bind, Except.bind, pure, Except.pure, h1, h2, h3, h4, eq_comm]

theorem oneSequence_ok {p : Params} {r : Ports} {mk : ByteSeq → Instr} {i : Instr} :
    oneSequence p r mk = .ok i ↔
      (r.a.len ≤ p.lmax ∧ r.a.len ≤ r.a.lanes.length) ∧ i = mk (r.a.lanes.take r.a.len) := by
  unfold oneSequence
  cases ha : seqOperand p.lmax .a r.a with
  | error e =>
    have := (seqOperand_error.mp ha).1
    simp only [bind, Except.bind, reduceCtorEq, false_iff]
    tauto
  | ok x =>
    obtain ⟨h1, h2, rfl⟩ := seqOperand_ok.mp ha
    simp [bind, Except.bind, pure, Except.pure, h1, h2, eq_comm]

theorem sequenceAndCount_ok {p : Params} {r : Ports} {mk : ByteSeq → Nat → Instr} {i : Instr} :
    sequenceAndCount p r mk = .ok i ↔
      (r.a.len ≤ p.lmax ∧ r.a.len ≤ r.a.lanes.length) ∧ r.shamt < 2 ^ p.nbits ∧
        i = mk (r.a.lanes.take r.a.len) r.shamt := by
  unfold sequenceAndCount
  cases ha : seqOperand p.lmax .a r.a with
  | error e =>
    have := (seqOperand_error.mp ha).1
    simp only [bind, Except.bind, reduceCtorEq, false_iff]
    tauto
  | ok x =>
    obtain ⟨h1, h2, rfl⟩ := seqOperand_ok.mp ha
    cases hn : countOperand p r.shamt with
    | error e =>
      have := (countOperand_error.mp hn).1
      simp [bind, Except.bind, this]
    | ok n =>
      obtain ⟨h3, rfl⟩ := countOperand_ok.mp hn
      simp [bind, Except.bind, pure, Except.pure, h1, h2, h3, eq_comm]

theorem oneString_ok {p : Params} {r : Ports} {mk : ByteSeq → Instr} {i : Instr} :
    oneString p r mk = .ok i ↔
      (r.s.len ≤ p.smax ∧ r.s.len ≤ r.s.lanes.length) ∧ i = mk (r.s.lanes.take r.s.len) := by
  unfold oneString
  cases hs : seqOperand p.smax .s r.s with
  | error e =>
    have := (seqOperand_error.mp hs).1
    simp only [bind, Except.bind, reduceCtorEq, false_iff]
    tauto
  | ok x =>
    obtain ⟨h1, h2, rfl⟩ := seqOperand_ok.mp hs
    simp [bind, Except.bind, pure, Except.pure, h1, h2, eq_comm]

/-- An opcode is its two fields (R51). -/
theorem opcodeOf_fields : ∀ op : Byte, opcodeOf (opUnit op) (opFunc op) = op := by decide +kernel

/-- The pairs of fields that the map of R58 has a row for. -/
def mappedFields (u f : Nat) : Bool := (u == 0 && f ≤ 5) || (u == 1 && f ≤ 5) || (u == 2 && f == 0)

/-- The rows of R58 by field and by opcode value are the same rows. -/
theorem mappedFields_eq : ∀ op : Byte, mappedFields (opUnit op) (opFunc op) =
    (op.toNat ≤ 0x05 || (0x10 ≤ op.toNat && op.toNat ≤ 0x15) || op == 0x20) := by decide +kernel

/-- An opcode whose fields have no row is not legal (R59). -/
theorem legalOp_of_unmapped {p : Params} {op : Byte} (h : mappedFields (opUnit op) (opFunc op) = false) :
    legalOp p op = false := by
  rw [mappedFields_eq] at h
  simp only [legalOp, Bool.or_eq_false_iff, Bool.and_eq_false_iff] at h ⊢
  tauto

/-- The arms of the decoder, by opcode (R58): which opcode it was, and the operand form it read. -/
theorem decode_cases (p : Params) (r : Ports) :
    (r.op = 0x00 ∧ decode p r = .ok (.bAnd r.ba r.bb)) ∨
    (r.op = 0x01 ∧ decode p r = .ok (.bOr r.ba r.bb)) ∨
    (r.op = 0x02 ∧ decode p r = .ok (.bXor r.ba r.bb)) ∨
    (r.op = 0x03 ∧ decode p r = .ok (.bNot r.ba)) ∨
    (r.op = 0x04 ∧ decode p r = byteAndCount p r .bShl) ∨
    (r.op = 0x05 ∧ decode p r = byteAndCount p r .bShr) ∨
    (r.op = 0x10 ∧ decode p r = twoSequences p r .sAnd) ∨
    (r.op = 0x11 ∧ decode p r = twoSequences p r .sOr) ∨
    (r.op = 0x12 ∧ decode p r = twoSequences p r .sXor) ∨
    (r.op = 0x13 ∧ decode p r = oneSequence p r .sNot) ∨
    (r.op = 0x14 ∧ decode p r = sequenceAndCount p r .sShl) ∨
    (r.op = 0x15 ∧ decode p r = sequenceAndCount p r .sShr) ∨
    (r.op = 0x20 ∧ p.hasParser = true ∧ decode p r = oneString p r .parse) ∨
    (legalOp p r.op = false ∧ decode p r = .error .illegalOp) := by
  have hop := opcodeOf_fields r.op
  unfold decode
  split
  case h_13 hu hf =>
    rw [hu, hf] at hop
    have hop : r.op = 0x20 := hop.symm
    cases hp : p.hasParser <;> simp [hop, legalOp, hp]
  case h_14 h1 h2 h3 h4 h5 h6 h7 h8 h9 h10 h11 h12 h13 =>
    have hun : mappedFields (opUnit r.op) (opFunc r.op) = false := by
      by_contra hm
      simp only [mappedFields, Bool.not_eq_false, Bool.or_eq_true, Bool.and_eq_true, beq_iff_eq,
        decide_eq_true_eq] at hm
      rcases hm with (⟨hu, hf⟩ | ⟨hu, hf⟩) | ⟨hu, hf⟩
      · interval_cases hv : opFunc r.op <;> simp_all
      · interval_cases hv : opFunc r.op <;> simp_all
      · exact h13 hu hf
    simp [legalOp_of_unmapped hun]
  all_goals
    rename_i hu hf
    rw [hu, hf] at hop
    have hop' := hop.symm
    simp only [opcodeOf] at hop'
    simp_all

section rows
variable {p : Params} {r : Ports}

/-- The map of R58 row by row, for an opcode that is known. -/
theorem decode_rows :
    (r.op = 0x00 → decode p r = .ok (.bAnd r.ba r.bb)) ∧
    (r.op = 0x01 → decode p r = .ok (.bOr r.ba r.bb)) ∧
    (r.op = 0x02 → decode p r = .ok (.bXor r.ba r.bb)) ∧
    (r.op = 0x03 → decode p r = .ok (.bNot r.ba)) ∧
    (r.op = 0x04 → decode p r = byteAndCount p r .bShl) ∧
    (r.op = 0x05 → decode p r = byteAndCount p r .bShr) ∧
    (r.op = 0x10 → decode p r = twoSequences p r .sAnd) ∧
    (r.op = 0x11 → decode p r = twoSequences p r .sOr) ∧
    (r.op = 0x12 → decode p r = twoSequences p r .sXor) ∧
    (r.op = 0x13 → decode p r = oneSequence p r .sNot) ∧
    (r.op = 0x14 → decode p r = sequenceAndCount p r .sShl) ∧
    (r.op = 0x15 → decode p r = sequenceAndCount p r .sShr) ∧
    (r.op = 0x20 → decode p r = if p.hasParser then oneString p r .parse else .error .illegalOp) := by
  have key : ∀ op u f, r.op = op → opUnit op = u → opFunc op = f → opUnit r.op = u ∧ opFunc r.op = f := by
    rintro _ _ _ rfl rfl rfl
    exact ⟨rfl, rfl⟩
  refine ⟨?_, ?_, ?_, ?_, ?_, ?_, ?_, ?_, ?_, ?_, ?_, ?_, ?_⟩
  · intro h
    obtain ⟨hu, hf⟩ := key 0x00 0 0 h rfl rfl
    simp only [decode, hu, hf]
  · intro h
    obtain ⟨hu, hf⟩ := key 0x01 0 1 h rfl rfl
    simp only [decode, hu, hf]
  · intro h
    obtain ⟨hu, hf⟩ := key 0x02 0 2 h rfl rfl
    simp only [decode, hu, hf]
  · intro h
    obtain ⟨hu, hf⟩ := key 0x03 0 3 h rfl rfl
    simp only [decode, hu, hf]
  · intro h
    obtain ⟨hu, hf⟩ := key 0x04 0 4 h rfl rfl
    simp only [decode, hu, hf]
  · intro h
    obtain ⟨hu, hf⟩ := key 0x05 0 5 h rfl rfl
    simp only [decode, hu, hf]
  · intro h
    obtain ⟨hu, hf⟩ := key 0x10 1 0 h rfl rfl
    simp only [decode, hu, hf]
  · intro h
    obtain ⟨hu, hf⟩ := key 0x11 1 1 h rfl rfl
    simp only [decode, hu, hf]
  · intro h
    obtain ⟨hu, hf⟩ := key 0x12 1 2 h rfl rfl
    simp only [decode, hu, hf]
  · intro h
    obtain ⟨hu, hf⟩ := key 0x13 1 3 h rfl rfl
    simp only [decode, hu, hf]
  · intro h
    obtain ⟨hu, hf⟩ := key 0x14 1 4 h rfl rfl
    simp only [decode, hu, hf]
  · intro h
    obtain ⟨hu, hf⟩ := key 0x15 1 5 h rfl rfl
    simp only [decode, hu, hf]
  · intro h
    obtain ⟨hu, hf⟩ := key 0x20 2 0 h rfl rfl
    simp only [decode, hu, hf]

theorem decode_bAnd (h : r.op = 0x00) : decode p r = .ok (.bAnd r.ba r.bb) := decode_rows.1 h

theorem decode_bOr (h : r.op = 0x01) : decode p r = .ok (.bOr r.ba r.bb) := decode_rows.2.1 h

theorem decode_bXor (h : r.op = 0x02) : decode p r = .ok (.bXor r.ba r.bb) := decode_rows.2.2.1 h

theorem decode_bNot (h : r.op = 0x03) : decode p r = .ok (.bNot r.ba) := decode_rows.2.2.2.1 h

theorem decode_bShl (h : r.op = 0x04) : decode p r = byteAndCount p r .bShl := decode_rows.2.2.2.2.1 h

theorem decode_bShr (h : r.op = 0x05) : decode p r = byteAndCount p r .bShr := decode_rows.2.2.2.2.2.1 h

theorem decode_sAnd (h : r.op = 0x10) : decode p r = twoSequences p r .sAnd := decode_rows.2.2.2.2.2.2.1 h

theorem decode_sOr (h : r.op = 0x11) : decode p r = twoSequences p r .sOr := decode_rows.2.2.2.2.2.2.2.1 h

theorem decode_sXor (h : r.op = 0x12) : decode p r = twoSequences p r .sXor := decode_rows.2.2.2.2.2.2.2.2.1 h

theorem decode_sNot (h : r.op = 0x13) : decode p r = oneSequence p r .sNot := decode_rows.2.2.2.2.2.2.2.2.2.1 h

theorem decode_sShl (h : r.op = 0x14) : decode p r = sequenceAndCount p r .sShl := decode_rows.2.2.2.2.2.2.2.2.2.2.1 h

theorem decode_sShr (h : r.op = 0x15) : decode p r = sequenceAndCount p r .sShr := decode_rows.2.2.2.2.2.2.2.2.2.2.2.1 h

theorem decode_parse (h : r.op = 0x20) : decode p r = if p.hasParser then oneString p r .parse else .error .illegalOp := decode_rows.2.2.2.2.2.2.2.2.2.2.2.2 h

/-- An opcode that is not legal decodes to nothing, whatever the other ports hold (R59, R61). -/
theorem decode_illegal (h : legalOp p r.op = false) : decode p r = .error .illegalOp := by
  rcases decode_cases p r with c | c | c | c | c | c | c | c | c | c | c | c | c | c
  case inr.inr.inr.inr.inr.inr.inr.inr.inr.inr.inr.inr.inl => simp [c.1, legalOp, c.2.1] at h
  case inr.inr.inr.inr.inr.inr.inr.inr.inr.inr.inr.inr.inr => exact c.2
  all_goals simp [c.1, legalOp] at h

end rows

end Sys2Proof
end

