-- ==== Sys2Proof/Laws/Encode.lean ====
section
/-! SUPPORT. The encoder: opcodes (R58), and a sequence put on a port. -/

namespace Sys2Proof

@[simp] theorem opcode_bAnd (a b : Byte) : (Instr.bAnd a b).opcode = 0x00 := rfl
@[simp] theorem opcode_bOr (a b : Byte) : (Instr.bOr a b).opcode = 0x01 := rfl
@[simp] theorem opcode_bXor (a b : Byte) : (Instr.bXor a b).opcode = 0x02 := rfl
@[simp] theorem opcode_bNot (a : Byte) : (Instr.bNot a).opcode = 0x03 := rfl
@[simp] theorem opcode_bShl (a : Byte) (n : Nat) : (Instr.bShl a n).opcode = 0x04 := rfl
@[simp] theorem opcode_bShr (a : Byte) (n : Nat) : (Instr.bShr a n).opcode = 0x05 := rfl
@[simp] theorem opcode_sAnd (x y : ByteSeq) : (Instr.sAnd x y).opcode = 0x10 := rfl
@[simp] theorem opcode_sOr (x y : ByteSeq) : (Instr.sOr x y).opcode = 0x11 := rfl
@[simp] theorem opcode_sXor (x y : ByteSeq) : (Instr.sXor x y).opcode = 0x12 := rfl
@[simp] theorem opcode_sNot (x : ByteSeq) : (Instr.sNot x).opcode = 0x13 := rfl
@[simp] theorem opcode_sShl (x : ByteSeq) (n : Nat) : (Instr.sShl x n).opcode = 0x14 := rfl
@[simp] theorem opcode_sShr (x : ByteSeq) (n : Nat) : (Instr.sShr x n).opcode = 0x15 := rfl
@[simp] theorem opcode_parse (str : ByteSeq) : (Instr.parse str).opcode = 0x20 := rfl

@[simp] theorem encodeOnto_op (r : Ports) (i : Instr) : (encodeOnto r i).op = i.opcode := by cases i <;> rfl

@[simp] theorem load_len (q : SeqPort) (x : ByteSeq) : (q.load x).len = x.length := rfl

/-- What is loaded on a port is the operand it presents. -/
@[simp] theorem load_take (q : SeqPort) (x : ByteSeq) : (q.load x).lanes.take x.length = x := by
  simp [SeqPort.load]

theorem load_lanes_length (q : SeqPort) (x : ByteSeq) : x.length ≤ (q.load x).lanes.length := by
  simp [SeqPort.load]

/-- A port loaded with the operand it presents is left as it is. -/
theorem load_self {q : SeqPort} (h : q.len ≤ q.lanes.length) : q.load (q.lanes.take q.len) = q := by
  cases q with
  | mk len lanes =>
    simp only [SeqPort.load, List.length_take, SeqPort.mk.injEq]
    simp only at h
    rw [Nat.min_eq_left h]
    exact ⟨rfl, List.take_append_drop len lanes⟩

end Sys2Proof
end

