-- ==== Sys2Proof/Laws/PerInstr.lean ====
section
/-! SUPPORT. Facts about every instruction as syntax, one lemma per constructor. -/

namespace Sys2Proof.Laws.OpcodeLegal

/-- The opcode of a command that fits the block is in the block's opcode map (R58, R59, R61). -/
def Statement (i : Instr) : Prop := ∀ p : Params, i.wellFormed p = true → legalOp p i.opcode = true

theorem bAnd (a b : Byte) : Statement (.bAnd a b) := fun _ _ => rfl

theorem bOr (a b : Byte) : Statement (.bOr a b) := fun _ _ => rfl

theorem bXor (a b : Byte) : Statement (.bXor a b) := fun _ _ => rfl

theorem bNot (a : Byte) : Statement (.bNot a) := fun _ _ => rfl

theorem bShl (a : Byte) (n : Nat) : Statement (.bShl a n) := fun _ _ => rfl

theorem bShr (a : Byte) (n : Nat) : Statement (.bShr a n) := fun _ _ => rfl

theorem sAnd (x y : ByteSeq) : Statement (.sAnd x y) := fun _ _ => rfl

theorem sOr (x y : ByteSeq) : Statement (.sOr x y) := fun _ _ => rfl

theorem sXor (x y : ByteSeq) : Statement (.sXor x y) := fun _ _ => rfl

theorem sNot (x : ByteSeq) : Statement (.sNot x) := fun _ _ => rfl

theorem sShl (x : ByteSeq) (n : Nat) : Statement (.sShl x n) := fun _ _ => rfl

theorem sShr (x : ByteSeq) (n : Nat) : Statement (.sShr x n) := fun _ _ => rfl

theorem parse (str : ByteSeq) : Statement (.parse str) := by
  intro p h
  simp only [Instr.wellFormed, Bool.and_eq_true] at h
  simp [legalOp, h.1]

end Sys2Proof.Laws.OpcodeLegal
end

