-- ==== Sys2Proof/Laws/Shift.lean ====
section
/-! SUPPORT. The shifter's two passes, one lane at a time. -/

namespace Sys2Proof.Machine

@[simp] theorem shlPass_nil (n : Nat) : shlPass n [] = ([], 0) := rfl

theorem shlPass_cons (n : Nat) (y : Byte) (rest : ByteSeq) :
    shlPass n (y :: rest) =
      (BitVec.ofNat 8 ((shlPass n rest).2 + y.toNat * 2 ^ n) :: (shlPass n rest).1,
        ((shlPass n rest).2 + y.toNat * 2 ^ n) / 256) := rfl

@[simp] theorem shlPass_length (n : Nat) (x : ByteSeq) : (shlPass n x).1.length = x.length := by
  induction x with
  | nil => rfl
  | cons y x ih => simp [shlPass_cons, ih]

@[simp] theorem seqShl_length (x : ByteSeq) (n : Nat) : (seqShl x n).length = x.length := shlPass_length n x

@[simp] theorem shrPass_nil (n x : Nat) : shrPass n x [] = [] := rfl

theorem shrPass_cons (n x : Nat) (y : Byte) (rest : ByteSeq) :
    shrPass n x (y :: rest) =
      BitVec.ofNat 8 ((x * 256 + y.toNat) / 2 ^ n) :: shrPass n ((x * 256 + y.toNat) % 2 ^ n) rest := rfl

@[simp] theorem shrPass_length (n x : Nat) (s : ByteSeq) : (shrPass n x s).length = s.length := by
  induction s generalizing x with
  | nil => rfl
  | cons y s ih => simp [shrPass_cons, ih]

@[simp] theorem seqShr_length (x : ByteSeq) (n : Nat) : (seqShr x n).length = x.length := shrPass_length n 0 x

end Sys2Proof.Machine
end

