-- ==== Sys2Proof/Machine/Macros.lean ====
section
/-! DEFINITION. The host's side of a command, and the pseudo-instructions (spec/30_encoding.md R64): host-side macros; the
block sees only the commands of the expansion. -/

namespace Sys2Proof.Machine

/-- The host drives a command's ports and presents it (R139). -/
def present (i : Instr) (s : State) : Result := performCommand (hostDrive (encodeOnto s.ports i) s)

/-- The host reads the result of a command and goes on with it (R108, R136). A command that gives no result ends the
macro with its response standing in the latch. -/
def withResult (o : Result) (k : ByteSeq → State → Result) : Result :=
  match o with
  | .next t =>
    match t.latch.result with
    | some r => k r t
    | none => .next t
  | .fault f => .fault f
  | .refused e => .refused e

/-- The pseudo-instructions of R64. -/
inductive Macro where
  /-- `S.CLR x`. -/
  | sClr (x : ByteSeq)
  /-- `B.CLR a`. -/
  | bClr (a : Byte)
  /-- `S.ANDN x, y`. -/
  | sAndn (x y : ByteSeq)
  /-- `S.ROL x, k`. -/
  | sRol (x : ByteSeq) (k : Nat)
  /-- `S.ROR x, k`. -/
  | sRor (x : ByteSeq) (k : Nat)
deriving DecidableEq, Repr

/-- The condition column of R64. -/
def Macro.applies : Macro → Bool
  | .sClr _ => true
  | .bClr _ => true
  | .sAndn x y => x.length == y.length
  | .sRol x k => decide (0 < k ∧ k < 8 * x.length)
  | .sRor x k => decide (0 < k ∧ k < 8 * x.length)

/-- The expansion column of R64, each command presented in turn. DESIGN CHOICE (log entry 14): the temporaries `t`, `t1`
and `t2` that R64 writes are the macro's own. They bind no name of the host, leave a host name `t`, `t1` or `t2` as it is,
and the operands are values, resolved before the first command of the expansion. -/
def expandMacro (m : Macro) (s : State) : Result :=
  match m with
  | .sClr x => present (.sXor x x) s
  | .bClr a => present (.bXor a a) s
  | .sAndn x y => withResult (present (.sNot y) s) fun t s1 => present (.sAnd x t) s1
  | .sRol x k =>
    withResult (present (.sShl x k) s) fun t1 s1 =>
      withResult (present (.sShr x (8 * x.length - k)) s1) fun t2 s2 => present (.sOr t1 t2) s2
  | .sRor x k =>
    withResult (present (.sShr x k) s) fun t1 s1 =>
      withResult (present (.sShl x (8 * x.length - k)) s1) fun t2 s2 => present (.sOr t1 t2) s2

/-- A macro, where its condition holds. -/
def runMacro (m : Macro) (s : State) : Result :=
  if m.applies then expandMacro m s else .refused .macroCondition

end Sys2Proof.Machine
end

