-- ==== Sys2Proof/Machine/Assembly.lean ====
section
/-! DEFINITION. The assembler syntax (spec/30_encoding.md R63) and the host's bookkeeping of named results. Text is a list
of characters; a line that does not follow the syntax assembles to none. -/

namespace Sys2Proof.Machine

/-- A name for a response. -/
abbrev AsmName := List Char

/-- A `<seq>` operand: a brace list, or the name of an earlier response (R63). -/
inductive SeqArg where
  | lit (x : ByteSeq)
  | named (n : AsmName)
deriving DecidableEq, Repr

/-- A command as a line writes it: an instruction (R63) or a macro (R64), with its `<seq>` operands unresolved. -/
inductive AsmCommand where
  | bAnd (a b : Byte)
  | bOr (a b : Byte)
  | bXor (a b : Byte)
  | bNot (a : Byte)
  | bShl (a : Byte) (n : Nat)
  | bShr (a : Byte) (n : Nat)
  | sAnd (x y : SeqArg)
  | sOr (x y : SeqArg)
  | sXor (x y : SeqArg)
  | sNot (x : SeqArg)
  | sShl (x : SeqArg) (n : Nat)
  | sShr (x : SeqArg) (n : Nat)
  | parse (str : ByteSeq)
  | sClr (x : SeqArg)
  | bClr (a : Byte)
  | sAndn (x y : SeqArg)
  | sRol (x : SeqArg) (k : Nat)
  | sRor (x : SeqArg) (k : Nat)
deriving DecidableEq, Repr

/-- A line: `<name> = ` where it names its response, and the command (R63). -/
structure AsmLine where
  label : Option AsmName
  command : AsmCommand
deriving DecidableEq, Repr

/-- The tokens of a line. -/
inductive Token where
  | word (w : List Char)
  | comma
  | openBrace
  | closeBrace
  | equals
  | quoted (octets : ByteSeq)
deriving DecidableEq, Repr

/-- Where the scanner stands: in a word (held reversed), in a quoted string, or inside a `\x41` escape of one. -/
inductive ScanMode where
  | plain (word : List Char)
  | quoted (octets : ByteSeq)
  | afterBackslash (octets : ByteSeq)
  | afterX (octets : ByteSeq)
  | afterDigit (octets : ByteSeq) (high : Nat)
deriving DecidableEq, Repr

/-- The value of a hexadecimal digit. -/
def hexDigit (c : Char) : Option Nat :=
  let n := c.toNat
  if 48 ≤ n ∧ n ≤ 57 then some (n - 48)
  else if 65 ≤ n ∧ n ≤ 70 then some (n - 55)
  else if 97 ≤ n ∧ n ≤ 102 then some (n - 87)
  else none

/-- The value of a decimal digit. -/
def decDigit (c : Char) : Option Nat := if 48 ≤ c.toNat ∧ c.toNat ≤ 57 then some (c.toNat - 48) else none

/-- A word that has ended stands before the tokens after it. -/
def endWord (w : List Char) (ts : List Token) : List Token :=
  match w with
  | [] => ts
  | _ :: _ => .word w.reverse :: ts

/-- The token of a character that is one by itself. -/
def punctuation (c : Char) : Option Token :=
  if c.toNat = 0x2C then some .comma
  else if c.toNat = 0x7B then some .openBrace
  else if c.toNat = 0x7D then some .closeBrace
  else if c.toNat = 0x3D then some .equals
  else none

/-- A space or a tab, which separate tokens. -/
def isBlank (c : Char) : Bool := c.toNat == 0x20 || c.toNat == 0x09

/-- The tokens of a line: `;` starts a comment; in a quoted string each character is one octet and `\x41` writes octet
`0x41` (R63). -/
def scan : ScanMode → List Char → Option (List Token)
  | .plain w, [] => some (endWord w [])
  | .plain w, c :: cs =>
    if c.toNat = 0x3B then some (endWord w [])
    else if isBlank c then (scan (.plain []) cs).map (endWord w)
    else if c.toNat = 0x22 then (scan (.quoted []) cs).map (endWord w)
    else match punctuation c with
      | some t => (scan (.plain []) cs).map fun ts => endWord w (t :: ts)
      | none => scan (.plain (c :: w)) cs
  | .quoted _, [] => none
  | .quoted o, c :: cs =>
    if c.toNat = 0x22 then (scan (.plain []) cs).map fun ts => .quoted o.reverse :: ts
    else if c.toNat = 0x5C then scan (.afterBackslash o) cs
    else if c.toNat < 256 then scan (.quoted (BitVec.ofNat 8 c.toNat :: o)) cs
    else none
  | .afterBackslash _, [] => none
  | .afterBackslash o, c :: cs => if c.toNat = 0x78 then scan (.afterX o) cs else none
  | .afterX _, [] => none
  | .afterX o, c :: cs =>
    match hexDigit c with
    | some d => scan (.afterDigit o d) cs
    | none => none
  | .afterDigit _ _, [] => none
  | .afterDigit o h, c :: cs =>
    match hexDigit c with
    | some d => scan (.quoted (BitVec.ofNat 8 (h * 16 + d) :: o)) cs
    | none => none

/-- Digits read in a base, most significant first. -/
def digitsValue (base : Nat) (digit : Char → Option Nat) : Nat → List Char → Option Nat
  | v, [] => some v
  | v, c :: cs =>
    match digit c with
    | some d => if d < base then digitsValue base digit (v * base + d) cs else none
    | none => none

/-- A decimal number: one digit at least. -/
def decimalNumber (w : List Char) : Option Nat :=
  match w with
  | [] => none
  | _ :: _ => digitsValue 10 decDigit 0 w

/-- `<byte>`: `0x` and two hexadecimal digits, `0b` and eight binary digits (underscores allowed), or a decimal number
`0 .. 255` (R63). -/
def byteLiteral (w : List Char) : Option Byte :=
  match w with
  | '0' :: 'x' :: rest => if rest.length = 2 then (digitsValue 16 hexDigit 0 rest).map (BitVec.ofNat 8) else none
  | '0' :: 'b' :: rest =>
    let ds := rest.filter (fun c => c != '_')
    if ds.length = 8 then (digitsValue 2 decDigit 0 ds).map (BitVec.ofNat 8) else none
  | _ => (decimalNumber w).bind fun n => if n < 256 then some (BitVec.ofNat 8 n) else none

/-- `<count>`: a decimal number `0 .. 2^NBITS - 1` (R63). -/
def countLiteral (p : Params) (w : List Char) : Option Nat :=
  (decimalNumber w).bind fun n => if n < 2 ^ p.nbits then some n else none

/-- A letter or an underscore. -/
def isNameStart (c : Char) : Bool := c.isAlpha || c == '_'

/-- `<name>`: letters, digits and underscores, no digit first (log entry 7). -/
def isName (w : List Char) : Bool :=
  match w with
  | [] => false
  | c :: cs => isNameStart c && cs.all fun d => isNameStart d || d.isDigit

/-- The elements of a brace list after its first brace, and the tokens after the list. -/
def listElements : List Token → Option (ByteSeq × List Token)
  | .word w :: .closeBrace :: ts => (byteLiteral w).map fun b => ([b], ts)
  | .word w :: .comma :: ts =>
    match byteLiteral w, listElements ts with
    | some b, some (bs, rest) => some (b :: bs, rest)
    | _, _ => none
  | _ => none

/-- A `<seq>` operand and the tokens after it. -/
def seqArg (ts : List Token) : Option (SeqArg × List Token) :=
  match ts with
  | .openBrace :: .closeBrace :: rest => some (.lit [], rest)
  | .openBrace :: rest => (listElements rest).map fun e => (.lit e.1, e.2)
  | .word w :: rest => if isName w then some (.named w, rest) else none
  | _ => none

/-- Operands `<byte>, <byte>`. -/
def asmTwoBytes (mk : Byte → Byte → AsmCommand) (ts : List Token) : Option AsmCommand :=
  match ts with
  | [.word v, .comma, .word w] => do
    let a ← byteLiteral v
    let b ← byteLiteral w
    pure (mk a b)
  | _ => none

/-- Operand `<byte>`. -/
def asmByte (mk : Byte → AsmCommand) (ts : List Token) : Option AsmCommand :=
  match ts with
  | [.word v] => (byteLiteral v).map mk
  | _ => none

/-- Operands `<byte>, <count>`. -/
def asmByteCount (p : Params) (mk : Byte → Nat → AsmCommand) (ts : List Token) : Option AsmCommand :=
  match ts with
  | [.word v, .comma, .word w] => do
    let a ← byteLiteral v
    let n ← countLiteral p w
    pure (mk a n)
  | _ => none

/-- Operands `<seq>, <seq>`. -/
def asmTwoSeqs (mk : SeqArg → SeqArg → AsmCommand) (ts : List Token) : Option AsmCommand :=
  match seqArg ts with
  | some (x, .comma :: rest) =>
    match seqArg rest with
    | some (y, []) => some (mk x y)
    | _ => none
  | _ => none

/-- Operand `<seq>`. -/
def asmSeq (mk : SeqArg → AsmCommand) (ts : List Token) : Option AsmCommand :=
  match seqArg ts with
  | some (x, []) => some (mk x)
  | _ => none

/-- Operands `<seq>, <count>`. -/
def asmSeqCount (p : Params) (mk : SeqArg → Nat → AsmCommand) (ts : List Token) : Option AsmCommand :=
  match seqArg ts with
  | some (x, [.comma, .word w]) => (countLiteral p w).map (mk x)
  | _ => none

/-- Operand `"<string>"`. -/
def asmString (mk : ByteSeq → AsmCommand) (ts : List Token) : Option AsmCommand :=
  match ts with
  | [.quoted o] => some (mk o)
  | _ => none

/-- A command from its mnemonic, in capitals, and its operand tokens (R63, R64). -/
def asmCommand (p : Params) (m : List Char) (ts : List Token) : Option AsmCommand :=
  if m = "B.AND".toList then asmTwoBytes .bAnd ts
  else if m = "B.OR".toList then asmTwoBytes .bOr ts
  else if m = "B.XOR".toList then asmTwoBytes .bXor ts
  else if m = "B.NOT".toList then asmByte .bNot ts
  else if m = "B.SHL".toList then asmByteCount p .bShl ts
  else if m = "B.SHR".toList then asmByteCount p .bShr ts
  else if m = "S.AND".toList then asmTwoSeqs .sAnd ts
  else if m = "S.OR".toList then asmTwoSeqs .sOr ts
  else if m = "S.XOR".toList then asmTwoSeqs .sXor ts
  else if m = "S.NOT".toList then asmSeq .sNot ts
  else if m = "S.SHL".toList then asmSeqCount p .sShl ts
  else if m = "S.SHR".toList then asmSeqCount p .sShr ts
  else if m = "PARSE".toList then asmString .parse ts
  else if m = "S.CLR".toList then asmSeq .sClr ts
  else if m = "B.CLR".toList then asmByte .bClr ts
  else if m = "S.ANDN".toList then asmTwoSeqs .sAndn ts
  else if m = "S.ROL".toList then asmSeqCount p .sRol ts
  else if m = "S.ROR".toList then asmSeqCount p .sRor ts
  else none

/-- The capital of a letter: mnemonics are case-insensitive (R63). -/
def capital (c : Char) : Char := if 97 ≤ c.toNat ∧ c.toNat ≤ 122 then Char.ofNat (c.toNat - 32) else c

/-- A line from its tokens. -/
def asmTokens (p : Params) (ts : List Token) : Option AsmLine :=
  match ts with
  | .word n :: .equals :: .word m :: rest =>
    if isName n then (asmCommand p (m.map capital) rest).map fun c => ⟨some n, c⟩ else none
  | .word m :: rest => (asmCommand p (m.map capital) rest).map fun c => ⟨none, c⟩
  | _ => none

/-- A line of text (R63). -/
def assembleLine (p : Params) (text : List Char) : Option AsmLine := (scan (.plain []) text).bind (asmTokens p)

/-- The results the host has named, latest first. -/
abbrev AsmNames := List (AsmName × ByteSeq)

/-- A `<seq>` operand's value: a name stands for the lanes of the response it names (R63). Names are compared exactly,
capital and small letters apart: DESIGN CHOICE (log entry 7), since R63 makes only mnemonics case-insensitive. -/
def SeqArg.value (env : AsmNames) : SeqArg → Option ByteSeq
  | .lit x => some x
  | .named n => (env.find? fun e => e.1 == n).map Prod.snd

/-- An instruction or a macro, ready to be presented. -/
inductive HostCommand where
  | instr (i : Instr)
  | pseudo (m : Macro)
deriving DecidableEq, Repr

/-- A command with its names resolved: of a macro too before any command of its expansion runs (DESIGN CHOICE, log entry
14). -/
def AsmCommand.resolve (env : AsmNames) : AsmCommand → Option HostCommand
  | .bAnd a b => some (.instr (.bAnd a b))
  | .bOr a b => some (.instr (.bOr a b))
  | .bXor a b => some (.instr (.bXor a b))
  | .bNot a => some (.instr (.bNot a))
  | .bShl a n => some (.instr (.bShl a n))
  | .bShr a n => some (.instr (.bShr a n))
  | .sAnd x y => (x.value env).bind fun u => (y.value env).map fun v => .instr (.sAnd u v)
  | .sOr x y => (x.value env).bind fun u => (y.value env).map fun v => .instr (.sOr u v)
  | .sXor x y => (x.value env).bind fun u => (y.value env).map fun v => .instr (.sXor u v)
  | .sNot x => (x.value env).map fun u => .instr (.sNot u)
  | .sShl x n => (x.value env).map fun u => .instr (.sShl u n)
  | .sShr x n => (x.value env).map fun u => .instr (.sShr u n)
  | .parse str => some (.instr (.parse str))
  | .sClr x => (x.value env).map fun u => .pseudo (.sClr u)
  | .bClr a => some (.pseudo (.bClr a))
  | .sAndn x y => (x.value env).bind fun u => (y.value env).map fun v => .pseudo (.sAndn u v)
  | .sRol x k => (x.value env).map fun u => .pseudo (.sRol u k)
  | .sRor x k => (x.value env).map fun u => .pseudo (.sRor u k)

/-- The host presents an instruction or a macro. -/
def runHostCommand (c : HostCommand) (s : State) : Result :=
  match c with
  | .instr i => present i s
  | .pseudo m => runMacro m s

/-- A label takes the lanes of the response that stands in the latch; a response without a result leaves it unbound
(log entry 14). An earlier response of exactly the same name, case and all (log entry 7), is no longer named. -/
def bindLabel (label : Option AsmName) (l : Latch) (env : AsmNames) : AsmNames :=
  match label with
  | none => env
  | some n =>
    let others := env.filter fun e => e.1 != n
    match l.result with
    | some r => (n, r) :: others
    | none => others

/-- One line of a host program: present the command, and name its response. The block holds no name (R63). A label on a
macro names the response of the last command of its expansion, and no other name changes (DESIGN CHOICE, log entry 14). -/
def runLine (l : AsmLine) (env : AsmNames) (s : State) : Host.Outcome (AsmNames × State) Fault Refusal :=
  match l.command.resolve env with
  | none => .refused .unboundName
  | some c =>
    match runHostCommand c s with
    | .next t => .next (bindLabel l.label t.latch env, t)
    | .fault f => .fault f
    | .refused e => .refused e

/-- A straight-line host program, line by line (R63, R139). -/
def runLines : List AsmLine → AsmNames → State → Host.Outcome (AsmNames × State) Fault Refusal
  | [], env, s => .next (env, s)
  | l :: ls, env, s =>
    match runLine l env s with
    | .next t => runLines ls t.1 t.2
    | .fault f => .fault f
    | .refused e => .refused e

end Sys2Proof.Machine
end

