-- ==== Sys2Proof/Safety.lean ====
section
/-! DEFINITION. The invariant of the latch, and what the host owes for every step to have a meaning. -/

namespace Sys2Proof.Machine

/-- A latch that a block with parameters `p` can hold: no reserved code (R110), `RVALID = 1` exactly with `OK` (R110),
`RLEN` within `LMAX` (R29), and the parser's two errors only where the parameters allow them (R110, R113). -/
abbrev Latch.Legal (p : Params) (l : Latch) : Prop :=
  reservedStatus l.status = false ∧
  (l.rvalid = true ↔ l.status = statusOk) ∧
  (∀ n ∈ l.rlen, n ≤ p.lmax) ∧
  (l.status = statusBadFormat → p.hasParser = true) ∧
  (l.status = statusValidationFailure → p.hasParser = true ∧ p.parseValidationMayFail = true)

/-- The invariant: parameters as the spec requires them, and a latch the block can hold. -/
abbrev State.Inv (s : State) : Prop := s.params.Valid ∧ s.latch.Legal s.params

/-- The host's duties at its next action: lengths in range when it presents a command (R134, R139), and, by the model's
choice, a count and lanes that the port can carry (log entries 5 and 6) and a read only of what holds a value (entry 8). -/
def State.dutiful (s : State) : Bool :=
  match s.host with
  | [] => true
  | .drive _ :: _ => true
  | .present :: _ => s.ports.inRange s.params
  | .read f :: _ => (s.latch.read f).isSome
  | .reset :: _ => true

/-- A step that has a meaning. -/
def State.StepsOn (s : State) : Prop := ∃ t, step s = .next t

end Sys2Proof.Machine
end

