-- ==== Sys2Proof/Certificates/Slice0/Obligations.lean ====
section
/-! DEFINITION. The statements for the provers. Status codes stand here as the numbers of spec/60_exceptions.md R110. -/

namespace Sys2Proof.Claims
open Sys2Proof.Machine

/-- The state after `respond(OK, r)`: the latch written, everything else as in `s` (R23). -/
def okWith (r : ByteSeq) (s : State) : State := { s with latch := ⟨0, some r⟩ }

/-- The state after `respond(c, none)`: the latch written, everything else as in `s` (R23, R109). -/
def errWith (c : BitVec 3) (s : State) : State := { s with latch := ⟨c, none⟩ }

/-- A port with a length field in range presents the sequence `x` (R21, R31). -/
abbrev Presents (bound : Nat) (q : SeqPort) (x : ByteSeq) : Prop :=
  q.len ≤ bound ∧ q.len ≤ q.lanes.length ∧ x = q.lanes.take q.len

/-- The host presents the command on the ports, and `rest` is what it does after that. -/
abbrev Presenting (s : State) (rest : List HostAction) : Prop := s.host = .present :: rest

/-- The opcodes of R59's list: every `OP` value that has no row in the map. -/
abbrev Unmapped (op : Byte) : Prop :=
  (0x06 ≤ op.toNat ∧ op.toNat ≤ 0x0F) ∨ (0x16 ≤ op.toNat ∧ op.toNat ≤ 0x1F) ∨
    (0x21 ≤ op.toNat ∧ op.toNat ≤ 0x2F) ∨ 0x30 ≤ op.toNat

/-- An octet that is neither a space nor a digit character (R57, R112). -/
abbrev BadOctet (c : Byte) : Prop := c ≠ 0x20 ∧ c ≠ 0x30 ∧ c ≠ 0x31

/-- The digit characters of a string, in order (R100). -/
def digitsOf (str : ByteSeq) : ByteSeq := str.filter (fun c => c != 0x20)

/-- A string of digit characters read as a base-2 numeral, first digit most significant (R104). -/
def base2 (t : ByteSeq) : Nat := t.foldl (fun v c => 2 * v + if c = 0x31 then 1 else 0) 0

/-- A sequence written out as binary digit characters, eight a byte, most significant first (R104). -/
def asDigits (x : ByteSeq) : ByteSeq :=
  x.flatMap fun b => (List.range 8).map fun j => if b.getLsbD (7 - j) then 0x31 else 0x30

/-- Two states with the same command on the ports of the same block: only what earlier commands, resets, reads and the
host's plans left behind may differ (R17). -/
abbrev SameCommand (s t : State) : Prop := s.params = t.params ∧ s.ports = t.ports

/-- A command of this opcode makes no free draw: only `PARSE` draws, where there is a parser whose validator may fail
(R106). -/
abbrev NoDraw (p : Params) (op : Byte) : Prop := op ≠ 0x20 ∨ p.hasParser = false ∨ p.parseValidationMayFail = false

/-- The ten commands that take a `<seq>` operand (R63, R64), on the operands `u` and `v` and the count `n`. -/
def seqCommands (u v : SeqArg) (n : Nat) : List AsmCommand :=
  [.sAnd u v, .sOr u v, .sXor u v, .sAndn u v, .sNot u, .sShl u n, .sShr u n, .sClr u, .sRol u n, .sRor u n]

/-- The text of a brace list whose elements are `body`. -/
def braced (body : String) : List Char := Char.ofNat 0x7B :: body.toList ++ [Char.ofNat 0x7D]

/-- Two outcomes that give the host the same response, or none for the same reason. -/
def SameResponse (o o' : Machine.Result) : Prop :=
  (∃ s t, o = .next s ∧ o' = .next t ∧ s.latch = t.latch) ∨ (∃ e, o = .refused e ∧ o' = .refused e)

end Sys2Proof.Claims

open Sys2Proof Sys2Proof.Machine Sys2Proof.Claims

-- Encoding

/-- R58: the opcode map, each opcode written out bit by bit; unmapped opcodes decode to nothing. Every operand port is at
zero. -/
def Obligations.OpcodeWordsDecode : Prop :=
  decodeTableWord 8 0b00000000 = some (.bAnd 0 0) ∧
  decodeTableWord 8 0b00000001 = some (.bOr 0 0) ∧
  decodeTableWord 8 0b00000010 = some (.bXor 0 0) ∧
  decodeTableWord 8 0b00000011 = some (.bNot 0) ∧
  decodeTableWord 8 0b00000100 = some (.bShl 0 0) ∧
  decodeTableWord 8 0b00000101 = some (.bShr 0 0) ∧
  decodeTableWord 8 0b00010000 = some (.sAnd [] []) ∧
  decodeTableWord 8 0b00010001 = some (.sOr [] []) ∧
  decodeTableWord 8 0b00010010 = some (.sXor [] []) ∧
  decodeTableWord 8 0b00010011 = some (.sNot []) ∧
  decodeTableWord 8 0b00010100 = some (.sShl [] 0) ∧
  decodeTableWord 8 0b00010101 = some (.sShr [] 0) ∧
  decodeTableWord 8 0b00100000 = some (.parse []) ∧
  decodeTableWord 8 0b00000110 = none ∧
  decodeTableWord 8 0b00010110 = none ∧
  decodeTableWord 8 0b00100001 = none ∧
  decodeTableWord 8 0b11111111 = none

/-- R51, R54, R58, R62: a command that fits the block, put on ports that carry anything else, is decoded to itself. -/
def Obligations.DecodeOfEncode : Prop :=
  ∀ (p : Params) (r : Ports) (i : Instr), i.wellFormed p = true → decode p (encodeOnto r i) = .ok i

/-- R51, R54, R58: the other direction. What the decoder answers fits the block, and puts back the very ports it was
read from: no bit of `OP` and no lane is dropped. -/
def Obligations.EncodeOfDecode : Prop :=
  ∀ (p : Params) (r : Ports) (i : Instr),
    decode p r = .ok i → i.wellFormed p = true ∧ encodeOnto r i = r

/-- R59: which opcodes are illegal, how many, and what one does, whatever the other ports hold. -/
def Obligations.IllegalOpcodesRespondIllegalOp : Prop :=
  (∀ (p : Params) (r : Ports),
    decode p r = .error .illegalOp ↔ Unmapped r.op ∨ (r.op = 0x20 ∧ p.hasParser = false)) ∧
  ((List.range 256).filter fun v => decide (Unmapped (BitVec.ofNat 8 v))).length = 243 ∧
  ∀ (s : State) (rest : List HostAction), Presenting s rest →
    Unmapped s.ports.op ∨ (s.ports.op = 0x20 ∧ s.params.hasParser = false) →
    step s = .next (errWith 4 { s with host := rest })

/-- R21, R54: two requests that agree on what their opcode reads are one command, and have one outcome. -/
def Obligations.UnreadPortsAreIgnored : Prop :=
  ∀ (s : State) (r : Ports) (rest : List HostAction), Presenting s rest → s.ports.SameRequest s.params r →
    (∀ t, step s = .next t → step { s with ports := r } = .next { t with ports := r }) ∧
    (∀ e, step s = .refused e → step { s with ports := r } = .refused e)

/-- R31, R116 step 2: a length field above the port's bound, on a port that the opcode reads, is refused, before any
comparison of lengths and whatever the string or the count. -/
def Obligations.LengthAboveBoundIsRefused : Prop :=
  ∀ (s : State) (rest : List HostAction), Presenting s rest →
    (readsA s.ports.op = true → s.params.lmax < s.ports.a.len →
      step s = .refused (.lengthOutOfRange .a)) ∧
    (readsB s.ports.op = true → s.ports.a.len ≤ s.params.lmax → s.ports.a.len ≤ s.ports.a.lanes.length →
      s.params.lmax < s.ports.b.len → step s = .refused (.lengthOutOfRange .b)) ∧
    (readsS s.params s.ports.op = true → s.params.smax < s.ports.s.len →
      step s = .refused (.lengthOutOfRange .s))

/-- THE MODEL'S CHOICE (log entries 5 and 6): a count of more than `NBITS` bits, and a length above the lanes the port
carries, are no values of the ports (R8, R14, R20), and are refused. -/
def Obligations.UnpresentablePortValuesAreRefused : Prop :=
  ∀ (s : State) (rest : List HostAction), Presenting s rest →
    (readsShamt s.ports.op = true → 2 ^ s.params.nbits ≤ s.ports.shamt →
      (readsA s.ports.op = true → s.ports.a.len ≤ s.params.lmax ∧ s.ports.a.len ≤ s.ports.a.lanes.length) →
      step s = .refused .countOutOfRange) ∧
    (readsA s.ports.op = true → s.ports.a.lanes.length < s.ports.a.len →
      step s = .refused (.lengthOutOfRange .a)) ∧
    (readsB s.ports.op = true → s.ports.a.len ≤ s.params.lmax → s.ports.a.len ≤ s.ports.a.lanes.length →
      s.ports.b.lanes.length < s.ports.b.len → step s = .refused (.lengthOutOfRange .b)) ∧
    (readsS s.params s.ports.op = true → s.ports.s.lanes.length < s.ports.s.len →
      step s = .refused (.lengthOutOfRange .s))

-- The step

/-- R18, R116, R137: a presented command runs as the instruction that its ports decode to, which fits the block; the
host's action is taken off its list, and nothing else is done around it. -/
def Obligations.StepRunsTheDecodedInstruction : Prop :=
  ∀ (s : State) (rest : List HostAction) (i : Instr), Presenting s rest → decode s.params s.ports = .ok i →
    i.wellFormed s.params = true ∧ step s = exec i { s with host := rest }

/-- R19, R24, R129, R137: the block does nothing of its own, and nothing when the host only changes its ports. -/
def Obligations.BlockActsOnlyOnCommands : Prop :=
  (∀ s : State, s.host = [] → step s = .next s) ∧
  (∀ (s : State) (r : Ports) (rest : List HostAction), s.host = .drive r :: rest →
    step s = .next { s with host := rest, ports := r })

/-- R134, R138, R139: where the host does its duty, a step has a meaning, so every command completes. THE MODEL'S CHOICE:
that it has none elsewhere is R31 for a length above its bound alone; for a count of more than `NBITS` bits it is log entry
5, for a length field above the lanes the port carries entry 6, for a read of what holds no value entry 8. -/
def Obligations.DutifulHostsAlwaysStep : Prop := ∀ s : State, s.dutiful = true ↔ s.StepsOn

/-- R110: the response table. A command's status is one of the five codes of R110, raised by the opcodes R110 names, and
`RVALID` is 1 with `OK` alone. -/
def Obligations.CommandResponseTable : Prop :=
  ∀ (s t : State) (rest : List HostAction), Presenting s rest → step s = .next t →
    (t.latch.status = 0 ∧ t.latch.rvalid = true ∧ legalOp s.params s.ports.op = true) ∨
    (t.latch = ⟨1, none⟩ ∧ (s.ports.op = 0x10 ∨ s.ports.op = 0x11 ∨ s.ports.op = 0x12) ∧
      s.ports.a.len ≠ s.ports.b.len) ∨
    (t.latch = ⟨2, none⟩ ∧ s.ports.op = 0x20 ∧ s.params.hasParser = true) ∨
    (t.latch = ⟨3, none⟩ ∧ s.ports.op = 0x20 ∧ s.params.hasParser = true ∧
      s.params.parseValidationMayFail = true) ∨
    (t.latch = ⟨4, none⟩ ∧ legalOp s.params s.ports.op = false)

/-- R17: the response depends on the request ports and the parameters alone. The one exception is R106's free draw, which
`PARSE` makes where the validator may fail; it is the model's counter's (log entry 3). -/
def Obligations.ResponseDependsOnTheRequestAlone : Prop :=
  ∀ (s t : State) (rest rest' : List HostAction), Presenting s rest → Presenting t rest' → SameCommand s t →
    s.draws = t.draws ∨ NoDraw s.params s.ports.op → SameResponse (step s) (step t)

/-- R41, R107: the same request presented twice gives the same response twice, where no free draw is made (R106). -/
def Obligations.SameRequestTwiceSameResponse : Prop :=
  ∀ (s t : State) (rest : List HostAction), s.host = .present :: .present :: rest →
    NoDraw s.params s.ports.op → step s = .next t → step t = .next { t with host := rest }

/-- R23, R42, R109: what an instruction leaves unchanged, all 13 alike: everything but the latch. The counter of free
draws is advanced by `PARSE` alone, and only where there is a parser whose validator may fail (R106). -/
def Obligations.InstructionsChangeOnlyTheLatch : Prop :=
  ∀ (i : Instr) (s t : State), exec i s = .next t →
    t.params = s.params ∧ t.ports = s.ports ∧ t.host = s.host ∧ t.readout = s.readout ∧
    ((∀ str, i ≠ .parse str) ∨ s.params.hasParser = false ∨ s.params.parseValidationMayFail = false →
      t.draws = s.draws)

-- Reset, and reading the latch

/-- R34: the latch after reset, for every choice of the parameters: `STATUS = 7`, `RVALID = 0`, and no value on `RLEN`
or on any lane. -/
def Obligations.ResetLatchIsIdle : Prop :=
  (∀ p : Params, (State.resetWith p).latch.status = 7 ∧ (State.resetWith p).latch.rvalid = false ∧
    (State.resetWith p).latch.rlen = none ∧ ∀ i, (State.resetWith p).latch.lane i = none) ∧
  State.reset.latch.status = 7 ∧ State.reset.latch.rvalid = false

/-- R130: the reset event sets the latch as power-on does, and does nothing else. -/
def Obligations.ResetEventSetsTheLatchOnly : Prop :=
  ∀ (s : State) (rest : List HostAction), s.host = .reset :: rest →
    step s = .next (errWith 7 { s with host := rest }) ∧
      (errWith 7 { s with host := rest }).latch = (State.resetWith s.params).latch

/-- R133: a host that reads after a reset event, or after power-on, gets `IDLE` and 0, until it presents a command; no
command responds `IDLE`. -/
def Obligations.IdleTellsThatNoCommandCompleted : Prop :=
  (∀ (s : State) (rest : List HostAction), s.host = .reset :: .read .status :: .read .rvalid :: rest →
    ∃ t u v, step s = .next t ∧ step t = .next u ∧ step u = .next v ∧
      u.readout = some 7 ∧ v.readout = some 0 ∧ v.host = rest) ∧
  (∀ p : Params, (State.resetWith p).latch.read .status = some 7 ∧ (State.resetWith p).latch.read .rvalid = some 0) ∧
  (∀ s t : State, (∀ rest, ¬ Presenting s rest) → step s = .next t → s.latch = ⟨7, none⟩ → t.latch = ⟨7, none⟩) ∧
  ∀ (s t : State) (rest : List HostAction), Presenting s rest → step s = .next t → t.latch.status ≠ 7

/-- R132: a command gives the same outcome whether or not a reset came right before it. -/
def Obligations.ResetDoesNotChangeResponses : Prop :=
  ∀ (s : State) (rest : List HostAction), s.host = .reset :: .present :: rest →
    ∃ t, step s = .next t ∧ step t = step { s with host := .present :: rest }

/-- R24: only a command and a reset change the latch; a read gives its value and changes nothing of the block. -/
def Obligations.LatchHoldsAndReadsAreFree : Prop :=
  (∀ s t : State, step s = .next t → t.latch ≠ s.latch →
    ∃ rest, s.host = .present :: rest ∨ s.host = .reset :: rest) ∧
  (∀ (s : State) (f : LatchField) (rest : List HostAction) (v : Nat), s.host = .read f :: rest →
    s.latch.read f = some v → step s = .next { s with host := rest, readout := some v })

/-- R22, R23: what a host reads after a response with a result, lane by lane, and that a part of the latch that holds no
value is not read: `RLEN` and every lane when `RVALID = 0`, the lanes at `RLEN` or above. -/
def Obligations.ReadsSeeTheResponse : Prop :=
  (∀ (s : State) (r : ByteSeq), (okWith r s).latch.read .status = some 0 ∧ (okWith r s).latch.read .rvalid = some 1 ∧
    (okWith r s).latch.read .rlen = some r.length ∧
    ∀ i, i < r.length → (okWith r s).latch.read (.lane i) = some (laneOr0 r i).toNat) ∧
  (∀ (s : State) (c : BitVec 3), (errWith c s).latch.read .status = some c.toNat ∧
    (errWith c s).latch.read .rvalid = some 0) ∧
  (∀ (s : State) (rest : List HostAction), s.latch.result = none →
    (s.host = .read .rlen :: rest → step s = .refused (.noValue .rlen)) ∧
    ∀ i, s.host = .read (.lane i) :: rest → step s = .refused (.noValue (.lane i))) ∧
  (∀ (s : State) (rest : List HostAction) (r : ByteSeq) (i : Nat), s.latch.result = some r → r.length ≤ i →
    s.host = .read (.lane i) :: rest → step s = .refused (.noValue (.lane i)))

-- The invariant

/-- R10, R29, R110: parameters as the spec requires them and a latch the block can hold stay so, whatever the host does:
no reserved status code, a result exactly with `OK`, and never more than `LMAX` lanes (for `PARSE`, R105). -/
def Obligations.EveryStepKeepsTheLatchLegal : Prop :=
  ∀ s t : State, s.Inv → step s = .next t → t.Inv

/-- The invariant holds at reset, for every choice of the parameters that the spec allows. -/
def Obligations.ResetLatchIsLegal : Prop :=
  State.reset.Inv ∧ ∀ p : Params, p.Valid → (State.resetWith p).Inv

/-- A table word runs as the instruction it decodes to, on the very next step (the plumbing of `withFetchWord`; how a
program comes to run is log entry 4). -/
def Obligations.FetchedTableWordsRun : Prop :=
  ∀ (s : State) (w : Nat) (i : Instr), s.params.hasParser = true → decodeTableWord 8 w = some i →
    step (s.withFetchWord 8 w) = exec i { s with ports := opcodePorts s.params (BitVec.ofNat 8 w) }

-- The Byte Operator

/-- R67. -/
def Obligations.ByteAndIsBitwise : Prop :=
  (∀ (p : Params) (r : Ports), r.op = 0x00 → decode p r = .ok (.bAnd r.ba r.bb)) ∧
  (∀ (s : State) (a b : Byte), ∃ r : Byte, exec (.bAnd a b) s = .next (okWith [r] s) ∧
    (∀ j, j < 8 → r.getLsbD j = (a.getLsbD j && b.getLsbD j)) ∧
    (b = 0x00 → r = 0x00) ∧ (b = 0xFF → r = a) ∧ (a = b → r = a) ∧
    exec (.bAnd b a) s = exec (.bAnd a b) s) ∧
  ∀ s : State, exec (.bAnd 0xF0 0x3C) s = .next (okWith [0x30] s)

/-- R68. -/
def Obligations.ByteOrIsBitwise : Prop :=
  (∀ (p : Params) (r : Ports), r.op = 0x01 → decode p r = .ok (.bOr r.ba r.bb)) ∧
  (∀ (s : State) (a b : Byte), ∃ r : Byte, exec (.bOr a b) s = .next (okWith [r] s) ∧
    (∀ j, j < 8 → r.getLsbD j = (a.getLsbD j || b.getLsbD j)) ∧
    (b = 0x00 → r = a) ∧ (b = 0xFF → r = 0xFF) ∧ (a = b → r = a) ∧
    exec (.bOr b a) s = exec (.bOr a b) s) ∧
  ∀ s : State, exec (.bOr 0xF0 0x3C) s = .next (okWith [0xFC] s)

/-- R69. -/
def Obligations.ByteXorIsBitwise : Prop :=
  (∀ (p : Params) (r : Ports), r.op = 0x02 → decode p r = .ok (.bXor r.ba r.bb)) ∧
  (∀ (s : State) (a b : Byte), ∃ r : Byte, exec (.bXor a b) s = .next (okWith [r] s) ∧
    (∀ j, j < 8 → r.getLsbD j = Bool.xor (a.getLsbD j) (b.getLsbD j)) ∧
    (a = b → r = 0x00) ∧ (b = 0x00 → r = a) ∧ (b = 0xFF → exec (.bNot a) s = .next (okWith [r] s)) ∧
    exec (.bXor b a) s = exec (.bXor a b) s) ∧
  ∀ s : State, exec (.bXor 0xF0 0x3C) s = .next (okWith [0xCC] s)

/-- R70. -/
def Obligations.ByteNotIsOnesComplement : Prop :=
  (∀ (p : Params) (r : Ports), r.op = 0x03 → decode p r = .ok (.bNot r.ba)) ∧
  (∀ (s : State) (a : Byte), ∃ r : Byte, exec (.bNot a) s = .next (okWith [r] s) ∧
    r.toNat = 255 - a.toNat ∧ (∀ j, j < 8 → r.getLsbD j = !a.getLsbD j) ∧
    (a = 0x00 → r = 0xFF) ∧ (a = 0xFF → r = 0x00) ∧ exec (.bNot r) s = .next (okWith [a] s)) ∧
  ∀ s : State, exec (.bNot 0x5A) s = .next (okWith [0xA5] s)

/-- R71. -/
def Obligations.ByteShiftLeftIsLogical : Prop :=
  (∀ (p : Params) (r : Ports), r.op = 0x04 → r.shamt < 2 ^ p.nbits → decode p r = .ok (.bShl r.ba r.shamt)) ∧
  (∀ (s : State) (a : Byte) (n : Nat), ∃ r : Byte, exec (.bShl a n) s = .next (okWith [r] s) ∧
    r.toNat = a.toNat * 2 ^ n % 256 ∧ (8 ≤ n → r = 0x00) ∧
    (n < 8 → ∀ j, j < 8 → r.getLsbD j = (decide (n ≤ j) && a.getLsbD (j - n))) ∧
    (n = 0 → r = a) ∧ (n = 7 → r = if a.getLsbD 0 then 0x80 else 0x00)) ∧
  (∀ s : State, exec (.bShl 0x11 10) s = .next (okWith [0x00] s)) ∧
  ∀ s : State, exec (.bShl 0x11 3) s = .next (okWith [0x88] s)

/-- R72. -/
def Obligations.ByteShiftRightIsLogical : Prop :=
  (∀ (p : Params) (r : Ports), r.op = 0x05 → r.shamt < 2 ^ p.nbits → decode p r = .ok (.bShr r.ba r.shamt)) ∧
  (∀ (s : State) (a : Byte) (n : Nat), ∃ r : Byte, exec (.bShr a n) s = .next (okWith [r] s) ∧
    r.toNat = a.toNat / 2 ^ n ∧ (8 ≤ n → r = 0x00) ∧
    (n < 8 → ∀ j, j < 8 → r.getLsbD j = (decide (j + n ≤ 7) && a.getLsbD (j + n))) ∧
    (n = 0 → r = a) ∧ (n = 7 → r = if a.getLsbD 7 then 0x01 else 0x00)) ∧
  (∀ s : State, exec (.bShr 0x80 7) s = .next (okWith [0x01] s)) ∧
  ∀ s : State, exec (.bShr 0xFF 8) s = .next (okWith [0x00] s)

/-- R66: whatever stands on `BA`, `BB` and `SHAMT`, a Byte Operator command responds `OK` with one byte. -/
def Obligations.ByteCommandsAlwaysSucceed : Prop :=
  ∀ (s : State) (rest : List HostAction), Presenting s rest → s.ports.op.toNat ≤ 0x05 →
    (readsShamt s.ports.op = true → s.ports.shamt < 2 ^ s.params.nbits) →
    ∃ r : Byte, step s = .next (okWith [r] { s with host := rest })

/-- R74: the byte shifts depend on the count only through `min(n, 8)`. -/
def Obligations.ByteShiftCountSaturatesAtEight : Prop :=
  ∀ (s : State) (a : Byte) (n : Nat),
    exec (.bShl a n) s = exec (.bShl a (min n 8)) s ∧ exec (.bShr a n) s = exec (.bShr a (min n 8)) s ∧
    (8 ≤ n → exec (.bShl a n) s = .next (okWith [0x00] s) ∧ exec (.bShr a n) s = .next (okWith [0x00] s))

-- The Sequence Operator's logic

/-- R77. -/
def Obligations.SequenceAndIsLaneWise : Prop :=
  (∀ (p : Params) (r : Ports) (x y : ByteSeq), r.op = 0x10 → Presents p.lmax r.a x → Presents p.lmax r.b y →
    decode p r = .ok (.sAnd x y)) ∧
  (∀ (s : State) (x y : ByteSeq), x.length ≠ y.length → exec (.sAnd x y) s = .next (errWith 1 s)) ∧
  (∀ (s : State) (x y : ByteSeq), x.length = y.length → ∃ r, exec (.sAnd x y) s = .next (okWith r s) ∧
    r.length = x.length ∧ (∀ i, i < x.length → laneOr0 r i = laneOr0 x i &&& laneOr0 y i) ∧
    val r = val x &&& val y ∧ (x = [] → r = []) ∧ (x = y → r = x) ∧
    exec (.sAnd y x) s = exec (.sAnd x y) s) ∧
  (∀ s : State, exec (.sAnd [0x12, 0x34] [0x0F, 0xF0]) s = .next (okWith [0x02, 0x30] s)) ∧
  ∀ s : State, exec (.sAnd [0x12] [0x0F, 0xF0]) s = .next (errWith 1 s)

/-- R78. -/
def Obligations.SequenceOrIsLaneWise : Prop :=
  (∀ (p : Params) (r : Ports) (x y : ByteSeq), r.op = 0x11 → Presents p.lmax r.a x → Presents p.lmax r.b y →
    decode p r = .ok (.sOr x y)) ∧
  (∀ (s : State) (x y : ByteSeq), x.length ≠ y.length → exec (.sOr x y) s = .next (errWith 1 s)) ∧
  (∀ (s : State) (x y : ByteSeq), x.length = y.length → ∃ r, exec (.sOr x y) s = .next (okWith r s) ∧
    r.length = x.length ∧ (∀ i, i < x.length → laneOr0 r i = laneOr0 x i ||| laneOr0 y i) ∧
    val r = val x ||| val y ∧ (x = [] → r = []) ∧ (x = y → r = x) ∧
    exec (.sOr y x) s = exec (.sOr x y) s) ∧
  ∀ s : State, exec (.sOr [0x12, 0x34] [0x0F, 0xF0]) s = .next (okWith [0x1F, 0xF4] s)

/-- R79. -/
def Obligations.SequenceXorIsLaneWise : Prop :=
  (∀ (p : Params) (r : Ports) (x y : ByteSeq), r.op = 0x12 → Presents p.lmax r.a x → Presents p.lmax r.b y →
    decode p r = .ok (.sXor x y)) ∧
  (∀ (s : State) (x y : ByteSeq), x.length ≠ y.length → exec (.sXor x y) s = .next (errWith 1 s)) ∧
  (∀ (s : State) (x y : ByteSeq), x.length = y.length → ∃ r, exec (.sXor x y) s = .next (okWith r s) ∧
    r.length = x.length ∧ (∀ i, i < x.length → laneOr0 r i = laneOr0 x i ^^^ laneOr0 y i) ∧
    val r = val x ^^^ val y ∧ (x = [] → r = []) ∧ (x = y → r = zeroSeq x.length) ∧
    exec (.sXor y x) s = exec (.sXor x y) s) ∧
  ∀ s : State, exec (.sXor [0x12, 0x34] [0x0F, 0xF0]) s = .next (okWith [0x1D, 0xC4] s)

/-- R80. -/
def Obligations.SequenceNotIsLaneWise : Prop :=
  (∀ (p : Params) (r : Ports) (x : ByteSeq), r.op = 0x13 → Presents p.lmax r.a x → decode p r = .ok (.sNot x)) ∧
  (∀ (s : State) (x : ByteSeq), ∃ r, exec (.sNot x) s = .next (okWith r s) ∧
    r.length = x.length ∧ (∀ i, i < x.length → laneOr0 r i = ~~~laneOr0 x i) ∧
    val r = 2 ^ (8 * x.length) - 1 - val x ∧ (x = [] → r = []) ∧ exec (.sNot r) s = .next (okWith x s)) ∧
  ∀ s : State, exec (.sNot [0x00, 0xFF, 0x5A]) s = .next (okWith [0xFF, 0x00, 0xA5] s)

/-- R76: the length fields alone decide, before any lane is computed. -/
def Obligations.LengthMismatchDecidedByLengthFields : Prop :=
  ∀ (s : State) (rest : List HostAction) (x y : ByteSeq), Presenting s rest →
    s.ports.op = 0x10 ∨ s.ports.op = 0x11 ∨ s.ports.op = 0x12 →
    Presents s.params.lmax s.ports.a x → Presents s.params.lmax s.ports.b y →
    (s.ports.a.len ≠ s.ports.b.len → step s = .next (errWith 1 { s with host := rest })) ∧
    (s.ports.a.len = s.ports.b.len → ∃ r, step s = .next (okWith r { s with host := rest }))

/-- R83: a successful command of the unit keeps the length of its operand. -/
def Obligations.SequenceCommandsKeepLength : Prop :=
  ∀ (s t : State) (rest : List HostAction) (r : ByteSeq), Presenting s rest →
    0x10 ≤ s.ports.op.toNat → s.ports.op.toNat ≤ 0x15 → step s = .next t → t.latch.result = some r →
    r.length = s.ports.a.len

/-- R38: on one lane the sequence commands are the byte commands. -/
def Obligations.OneLaneSequencesAgreeWithBytes : Prop :=
  ∀ (s : State) (a b : Byte) (n : Nat),
    exec (.sAnd [a] [b]) s = exec (.bAnd a b) s ∧ exec (.sOr [a] [b]) s = exec (.bOr a b) s ∧
    exec (.sXor [a] [b]) s = exec (.bXor a b) s ∧ exec (.sNot [a]) s = exec (.bNot a) s ∧
    exec (.sShl [a] n) s = exec (.bShl a n) s ∧ exec (.sShr [a] n) s = exec (.bShr a n) s

-- The barrel shifter

/-- R86 (and R88): the byte-serial algorithm computes `(val(A) * 2^n) mod 2^(8L)`, for every length and every count. -/
def Obligations.ShiftLeftComputesItsDefinition : Prop :=
  ∀ (s : State) (x : ByteSeq) (n : Nat),
    exec (.sShl x n) s = .next (okWith (seqOf x.length (val x * 2 ^ n % 2 ^ (8 * x.length))) s)

/-- R91 (and R93): the byte-serial algorithm computes `val(A) div 2^n`, for every length and every count. -/
def Obligations.ShiftRightComputesItsDefinition : Prop :=
  ∀ (s : State) (x : ByteSeq) (n : Nat),
    exec (.sShr x n) s = .next (okWith (seqOf x.length (val x / 2 ^ n)) s)

/-- R89: the left shift by `n = 8q + b`, lane by lane as a parallel shifter computes it, and bit by bit. -/
def Obligations.ShiftLeftLaneForm : Prop :=
  ∀ (s : State) (x : ByteSeq) (q b : Nat), b ≤ 7 →
    ∃ r, exec (.sShl x (8 * q + b)) s = .next (okWith r s) ∧ r.length = x.length ∧
      (∀ i, i < x.length → (laneOr0 r i).toNat =
        (laneOr0 x (i + q)).toNat * 2 ^ b % 256 ||| (laneOr0 x (i + q + 1)).toNat / 2 ^ (8 - b)) ∧
      (∀ k, k < 8 * x.length →
        (val r).testBit k = (decide (8 * q + b ≤ k) && (val x).testBit (k - (8 * q + b))))

/-- R94: the right shift by `n = 8q + b`, lane by lane and bit by bit. A lane of negative index is 0. -/
def Obligations.ShiftRightLaneForm : Prop :=
  ∀ (s : State) (x : ByteSeq) (q b : Nat), b ≤ 7 →
    ∃ r, exec (.sShr x (8 * q + b)) s = .next (okWith r s) ∧ r.length = x.length ∧
      (∀ i, i < x.length → (laneOr0 r i).toNat =
        (if q ≤ i then (laneOr0 x (i - q)).toNat else 0) / 2 ^ b |||
          (if q + 1 ≤ i then (laneOr0 x (i - q - 1)).toNat else 0) * 2 ^ (8 - b) % 256) ∧
      (∀ k, (val r).testBit k =
        (decide (k + (8 * q + b) < 8 * x.length) && (val x).testBit (k + (8 * q + b))))

/-- R90: a left shift by the width or more clears the sequence. -/
def Obligations.ShiftLeftByTheWidthClears : Prop :=
  ∀ (s : State) (x : ByteSeq) (n : Nat), 8 * x.length ≤ n →
    exec (.sShl x n) s = .next (okWith (zeroSeq x.length) s)

/-- R95: a right shift by the width or more clears the sequence. -/
def Obligations.ShiftRightByTheWidthClears : Prop :=
  ∀ (s : State) (x : ByteSeq) (n : Nat), 8 * x.length ≤ n →
    exec (.sShr x n) s = .next (okWith (zeroSeq x.length) s)

/-- R87, R92, corner cases: a count of `8q` moves whole lanes and fills with zero lanes; with `q = 0`, the identity. -/
def Obligations.ShiftByWholeLanesMovesLanes : Prop :=
  ∀ (s : State) (x : ByteSeq) (q : Nat), q ≤ x.length →
    exec (.sShl x (8 * q)) s = .next (okWith (x.drop q ++ zeroSeq q) s) ∧
    exec (.sShr x (8 * q)) s = .next (okWith (zeroSeq q ++ x.take (x.length - q)) s)

/-- R97: shifts compose by adding their counts; there and back clears the bits that were shifted out. -/
def Obligations.ShiftsCompose : Prop :=
  (∀ (s : State) (x : ByteSeq) (m n : Nat), ∃ y, exec (.sShl x m) s = .next (okWith y s) ∧
    exec (.sShl y n) (okWith y s) = exec (.sShl x (m + n)) s) ∧
  (∀ (s : State) (x : ByteSeq) (m n : Nat), ∃ y, exec (.sShr x m) s = .next (okWith y s) ∧
    exec (.sShr y n) (okWith y s) = exec (.sShr x (m + n)) s) ∧
  (∀ (s : State) (x : ByteSeq) (n : Nat), ∃ y z, exec (.sShl x n) s = .next (okWith y s) ∧
    exec (.sShr y n) (okWith y s) = .next (okWith z s) ∧ z.length = x.length ∧
    val z = val x % 2 ^ (8 * x.length - n)) ∧
  (∀ (s : State) (x : ByteSeq) (n : Nat), ∃ y z, exec (.sShr x n) s = .next (okWith y s) ∧
    exec (.sShl y n) (okWith y s) = .next (okWith z s) ∧ z.length = x.length ∧
    val z = val x - val x % 2 ^ n)

-- The Text Parser

/-- R104: an accepted string of `k` digits gives `ceil(k/8)` lanes with the value of the digits, in every block with a
parser; a sequence written out as binary digits comes back. The first clause says which strings are accepted (R99, R101);
leading zero digits count. -/
def Obligations.ParseValueAndLength : Prop :=
  (∀ (s : State) (str : ByteSeq), s.params.hasParser = true → s.params.parseValidationMayFail = false →
    (∀ c ∈ str, ¬ BadOctet c) → ∃ r, exec (.parse str) s = .next (okWith r s) ∧
      r.length = ((digitsOf str).length + 7) / 8 ∧ val r = base2 (digitsOf str)) ∧
  (∀ (s t : State) (str : ByteSeq), exec (.parse str) s = .next t → t.latch.status = 0 →
    (∀ c ∈ str, ¬ BadOctet c) ∧ ∃ r, t.latch.result = some r ∧
      r.length = ((digitsOf str).length + 7) / 8 ∧ val r = base2 (digitsOf str)) ∧
  (∀ (s : State) (x : ByteSeq), s.params.hasParser = true → s.params.parseValidationMayFail = false →
    exec (.parse (asDigits x)) s = .next (okWith x s))

/-- R112: `BAD_FORMAT` exactly where some octet is no space and no digit, wherever it stands, and with no result. -/
def Obligations.BadFormatExactlyOnBadOctets : Prop :=
  (∀ (s t : State) (str : ByteSeq), exec (.parse str) s = .next t → t.latch.status = 2 →
    t.latch.result = none ∧ ∃ c ∈ str, BadOctet c) ∧
  (∀ (s : State) (str : ByteSeq), s.params.hasParser = true → s.params.parseValidationMayFail = false →
    (∃ c ∈ str, BadOctet c) → exec (.parse str) s = .next (errWith 2 s))

/-- R106, R113: where the validator may fail, each `PARSE` draws once, and either reports `VALIDATION_FAILURE` or does
what it does in a block whose validator cannot fail; in such a block it never reports it. -/
def Obligations.ValidationFailureIsAFreeDraw : Prop :=
  (∀ (s : State) (str : ByteSeq), s.params.hasParser = true → s.params.parseValidationMayFail = true → ∃ l,
    exec (.parse str) { s with params := { s.params with parseValidationMayFail := false } } =
      .next { s with params := { s.params with parseValidationMayFail := false }, latch := l } ∧
    exec (.parse str) s =
      .next { s with draws := s.draws + 1, latch := if Config.validationDraw s.draws then ⟨3, none⟩ else l }) ∧
  (∀ (s t : State) (str : ByteSeq), s.params.parseValidationMayFail = false → exec (.parse str) s = .next t →
    t.latch.status ≠ 3)

/-- R61: without a parser `0x20` is an illegal opcode, whatever port S holds. -/
def Obligations.ParseWithoutParserIsIllegal : Prop :=
  (∀ (p : Params) (r : Ports), p.hasParser = false → r.op = 0x20 → decode p r = .error .illegalOp) ∧
  (∀ (s : State) (str : ByteSeq), s.params.hasParser = false → exec (.parse str) s = .next (errWith 4 s)) ∧
  (∀ (p : Params) (r : Ports) (x : ByteSeq), p.hasParser = true → r.op = 0x20 → Presents p.smax r.s x →
    decode p r = .ok (.parse x))

/-- R100: a space may stand anywhere, and changes nothing; a string of spaces only is the empty string. -/
def Obligations.ParseIgnoresSpaces : Prop :=
  (∀ (s : State) (u v : ByteSeq), exec (.parse (u ++ 0x20 :: v)) s = exec (.parse (u ++ v)) s) ∧
  (∀ (s : State) (n : Nat), s.params.hasParser = true → s.params.parseValidationMayFail = false →
    exec (.parse (List.replicate n 0x20)) s = .next (okWith [] s))

/-- R105: the result of a string that port S can carry fits in R. -/
def Obligations.ParseResultAlwaysFits : Prop :=
  ∀ (s t : State) (str r : ByteSeq), s.params.Valid → (Instr.parse str).wellFormed s.params = true →
    exec (.parse str) s = .next t → t.latch.result = some r → r.length ≤ s.params.lmax

-- The host's macros and its assembler

/-- R64, `S.CLR` and `B.CLR`. -/
def Obligations.MacroClearGivesZero : Prop :=
  (∀ (s : State) (x : ByteSeq), x.length ≤ s.params.lmax → ∃ t, runMacro (.sClr x) s = .next t ∧
    t.latch = ⟨0, some (zeroSeq x.length)⟩ ∧ t.params = s.params ∧ t.host = s.host) ∧
  (∀ (s : State) (a : Byte), ∃ t, runMacro (.bClr a) s = .next t ∧
    t.latch = ⟨0, some [0x00]⟩ ∧ t.params = s.params ∧ t.host = s.host)

/-- R64, `S.ANDN`: `X & ~Y` lane by lane; operands of different lengths are outside its condition. -/
def Obligations.MacroAndnMasks : Prop :=
  (∀ (s : State) (x y : ByteSeq), x.length = y.length → x.length ≤ s.params.lmax →
    ∃ t r, runMacro (.sAndn x y) s = .next t ∧ t.latch = ⟨0, some r⟩ ∧ r.length = x.length ∧
      (∀ i, i < x.length → laneOr0 r i = laneOr0 x i &&& ~~~laneOr0 y i) ∧
      t.params = s.params ∧ t.host = s.host) ∧
  (∀ (s : State) (x y : ByteSeq), x.length ≠ y.length → runMacro (.sAndn x y) s = .refused .macroCondition)

/-- R64, `S.ROL`: bit `j` of the result is bit `j - k` of the operand, around its width. -/
def Obligations.MacroRotateLeft : Prop :=
  ∀ (s : State) (x : ByteSeq) (k : Nat), x.length ≤ s.params.lmax → 0 < k → k < 8 * x.length →
    k < 2 ^ s.params.nbits → 8 * x.length - k < 2 ^ s.params.nbits →
    ∃ t r, runMacro (.sRol x k) s = .next t ∧ t.latch = ⟨0, some r⟩ ∧ r.length = x.length ∧
      (∀ j, j < 8 * x.length → (val r).testBit j = (val x).testBit ((j + (8 * x.length - k)) % (8 * x.length))) ∧
      t.params = s.params ∧ t.host = s.host

/-- R64, `S.ROR`: bit `j` of the result is bit `j + k` of the operand, around its width. -/
def Obligations.MacroRotateRight : Prop :=
  ∀ (s : State) (x : ByteSeq) (k : Nat), x.length ≤ s.params.lmax → 0 < k → k < 8 * x.length →
    k < 2 ^ s.params.nbits → 8 * x.length - k < 2 ^ s.params.nbits →
    ∃ t r, runMacro (.sRor x k) s = .next t ∧ t.latch = ⟨0, some r⟩ ∧ r.length = x.length ∧
      (∀ j, j < 8 * x.length → (val r).testBit j = (val x).testBit ((j + k) % (8 * x.length))) ∧
      t.params = s.params ∧ t.host = s.host

/-- R63: lines of text and the commands they stand for: every operand form (the three of a byte, a count, a brace list and
the empty one, a name, a string), both cases of a mnemonic, a label, a comment, a `\x41` escape, a macro, and lines that
are none. -/
def Obligations.AssemblerReadsItsSyntax : Prop :=
  assembleLine Params.vectors "B.AND 0xF0, 0b0011_1100 ; mask".toList = some ⟨none, .bAnd 0xF0 0x3C⟩ ∧
  assembleLine Params.vectors "b.shl 17, 10".toList = some ⟨none, .bShl 0x11 10⟩ ∧
  assembleLine Params.vectors "r1 = S.AND m, t".toList = some ⟨some "r1".toList, .sAnd (.named "m".toList) (.named "t".toList)⟩ ∧
  assembleLine Params.vectors "PARSE \"0 1\\x41\"".toList = some ⟨none, .parse [0x30, 0x20, 0x31, 0x41]⟩ ∧
  assembleLine Params.vectors "S.ROL r1, 4".toList = some ⟨none, .sRol (.named "r1".toList) 4⟩ ∧
  assembleLine Params.vectors ("S.AND ".toList ++ braced "0x2D, 0b1110_1001, 47" ++ ", ".toList ++ braced "") =
    some ⟨none, .sAnd (.lit [0x2D, 0xE9, 0x2F]) (.lit [])⟩ ∧
  assembleLine Params.vectors ("v = s.shl ".toList ++ braced "0x00, 0x05" ++ ", 4".toList) =
    some ⟨some "v".toList, .sShl (.lit [0x00, 0x05]) 4⟩ ∧
  assembleLine Params.vectors "B.NOT 256".toList = none ∧
  assembleLine Params.vectors "S.SHL r1, 65536".toList = none ∧
  assembleLine Params.vectors "B.ROL 1, 2".toList = none

/-- R63: what a line presents. Its `<seq>` operands become their values, and the line is an instruction, which completes
with its own effect where it fits the block, or a macro (R64). A program's lines run one after the other. THE MODEL'S CHOICE
(log entry 14): a macro's operands become their values before its expansion runs. -/
def Obligations.LinesPresentTheirCommands : Prop :=
  (∀ (env : AsmNames) (u v : SeqArg) (x y : ByteSeq) (n : Nat), u.value env = some x → v.value env = some y →
    (seqCommands u v n).map (fun c => c.resolve env) =
      [some (.instr (.sAnd x y)), some (.instr (.sOr x y)), some (.instr (.sXor x y)), some (.pseudo (.sAndn x y)),
        some (.instr (.sNot x)), some (.instr (.sShl x n)), some (.instr (.sShr x n)), some (.pseudo (.sClr x)),
        some (.pseudo (.sRol x n)), some (.pseudo (.sRor x n))]) ∧
  (∀ (env : AsmNames) (x : ByteSeq), (SeqArg.lit x).value env = some x) ∧
  (∀ (env : AsmNames) (a b : Byte) (n : Nat) (str : ByteSeq),
    [AsmCommand.bAnd a b, .bOr a b, .bXor a b, .bNot a, .bShl a n, .bShr a n, .parse str, .bClr a].map
        (fun c => c.resolve env) =
      [some (.instr (.bAnd a b)), some (.instr (.bOr a b)), some (.instr (.bXor a b)), some (.instr (.bNot a)),
        some (.instr (.bShl a n)), some (.instr (.bShr a n)), some (.instr (.parse str)), some (.pseudo (.bClr a))]) ∧
  (∀ (s : State) (i : Instr), i.wellFormed s.params = true → ∃ t, runHostCommand (.instr i) s = .next t ∧
    exec i { s with ports := encodeOnto s.ports i } = .next t) ∧
  (∀ (s : State) (m : Macro), runHostCommand (.pseudo m) s = runMacro m s) ∧
  (∀ (l : AsmLine) (ls : List AsmLine) (env env' : AsmNames) (s t : State), runLine l env s = .next (env', t) →
    runLines (l :: ls) env s = runLines ls env' t)

/-- R63: a line names the response of its own command, and a name stands for that response's lanes in every later line that
takes a `<seq>` operand: such a line does what it does with any operand of the same value, a brace list among them. THE
MODEL'S CHOICE (log entry 14): on a macro the label names the last response, and every other name keeps its value through
the line, so that the temporaries `t`, `t1` and `t2` of R64 bind no name of the host; a label on a response without a result
names nothing; a line that uses a name of nothing is refused. THE MODEL'S CHOICE too: names are compared exactly (log entry
7). -/
def Obligations.NamedResultsAreCopiedByTheHost : Prop :=
  (∀ (l : AsmLine) (env : AsmNames) (c : HostCommand) (s t : State), l.command.resolve env = some c →
    runHostCommand c s = .next t → ∃ env', runLine l env s = .next (env', t) ∧
      (∀ n, l.label = some n → (SeqArg.named n).value env' = t.latch.result) ∧
      (∀ m, l.label ≠ some m → (SeqArg.named m).value env' = (SeqArg.named m).value env)) ∧
  (∀ (s : State) (env : AsmNames) (lab : Option AsmName) (u u' v v' : SeqArg) (n : Nat) (c c' : AsmCommand),
    u.value env = u'.value env → v.value env = v'.value env →
    (c, c') ∈ (seqCommands u v n).zip (seqCommands u' v' n) → runLine ⟨lab, c⟩ env s = runLine ⟨lab, c'⟩ env s) ∧
  (∀ (s : State) (env : AsmNames) (lab : Option AsmName) (u v : SeqArg) (n : Nat),
    (u.value env = none → ∀ c ∈ seqCommands u v n, runLine ⟨lab, c⟩ env s = .refused .unboundName) ∧
    (v.value env = none → ∀ c ∈ (seqCommands u v n).take 4, runLine ⟨lab, c⟩ env s = .refused .unboundName)) ∧
  (∀ (s : State) (env : AsmNames) (m n : AsmName) (x : ByteSeq), (SeqArg.named m).value env = some x →
    x.length ≤ s.params.lmax → ∃ env' t y, runLine ⟨some n, .sNot (.named m)⟩ env s = .next (env', t) ∧
      t.latch = ⟨0, some y⟩ ∧ (SeqArg.named n).value env' = some y ∧ y.length = x.length ∧
      (∀ i, i < x.length → laneOr0 y i = ~~~laneOr0 x i) ∧ t.host = s.host)
end

