-- ==== Sys2Proof/Tests/Slice0.lean ====
section
/-! SUPPORT. Checks of the model against the spec's encodings and vectors (spec/30_encoding.md R58,
spec/95_test_vectors.md), and a witness for the hypotheses of each obligation. -/

namespace Sys2Proof.Tests
open Sys2Proof.Machine Sys2Proof.Claims

/-- Ports written out: opcode, `BA`, `BB`, `SHAMT`, and the three ports with lengths (length field, lanes). -/
def ports (op ba bb : Byte) (n : Nat) (a b s : Nat × List Byte) : Ports :=
  ⟨op, ba, bb, n, ⟨a.1, a.2⟩, ⟨b.1, b.2⟩, ⟨s.1, s.2⟩⟩

/-- A state right after reset, with these parameters, ports and host actions. -/
def st (p : Params) (r : Ports) (h : List HostAction) : State := { State.resetWith p with ports := r, host := h }

/-- A state in which the host presents these ports to a block with the vectors' parameters. -/
def pr (r : Ports) : State := st Params.vectors r [.present]

/-- The latch after one step, none where the step is refused. -/
def after (s : State) : Option Latch :=
  match step s with
  | .next t => some t.latch
  | .fault _ => none
  | .refused _ => none

/-- The reason a step is refused for. -/
def refusal (s : State) : Option Refusal :=
  match step s with
  | .next _ => none
  | .fault _ => none
  | .refused e => some e

/-- The block without a parser (R9), and the block whose validator may fail (R11). -/
def noParser : Params := { Params.vectors with hasParser := false }
def mayFail : Params := { Params.vectors with parseValidationMayFail := true }

/-- The ports of spec/95_test_vectors.md P1, with junk on the lanes above `ALEN` (X8) and on the ports not read. -/
def shiftPorts (op : Byte) (n : Nat) : Ports :=
  ports op 0xAA 0x55 n (4, [0x2D, 0xE9, 0x2F, 0xFE, 0xFF, 0xFF, 0xFF, 0xFF]) (15, [0x01]) (70, [])

/-- Two-sequence ports with the operands of W1. -/
def pairPorts (op : Byte) : Ports :=
  ports op 0 0 0 (2, [0x12, 0x34, 0xFF, 0xFF, 0xFF, 0xFF, 0xFF, 0xFF]) (2, [0x0F, 0xF0, 0xEE, 0xEE, 0xEE, 0xEE, 0xEE, 0xEE]) (0, [])

/-- Ports whose `BLEN` differs from `ALEN` (W6). -/
def unequalPorts (op : Byte) : Ports := ports op 0 0 0 (1, [0x12, 0]) (2, [0x0F, 0xF0]) (0, [])

/-- Ports that present a string to the parser. -/
def textPorts (str : List Byte) : Ports := ports 0x20 0 0 0 (0, []) (0, []) (str.length, str)

-- Well-formedness: an ill-formed term for each check

theorem test_wellFormed_refuses_long_sequence_a : (Instr.sAnd (List.replicate 9 0) []).wellFormed Params.vectors = false := by decide
theorem test_wellFormed_refuses_long_sequence_b : (Instr.sAnd [] (List.replicate 9 0)).wellFormed Params.vectors = false := by decide
theorem test_wellFormed_refuses_long_single_sequence : (Instr.sNot (List.replicate 9 0)).wellFormed Params.vectors = false := by decide
theorem test_wellFormed_refuses_wide_count_byte : (Instr.bShl 0 65536).wellFormed Params.vectors = false := by decide
theorem test_wellFormed_refuses_wide_count_seq : (Instr.sShr [] 65536).wellFormed Params.vectors = false := by decide
theorem test_wellFormed_refuses_long_string : (Instr.parse (List.replicate 65 0x30)).wellFormed Params.vectors = false := by decide
theorem test_wellFormed_refuses_parse_without_parser : (Instr.parse []).wellFormed noParser = false := by decide

-- Decoding: each opcode of R58 written out bit by bit

theorem test_decode_bAnd : decode Params.vectors (ports 0b00000000 0xF0 0x3C 0 (0, []) (0, []) (0, [])) = .ok (.bAnd 0xF0 0x3C) := by rfl
theorem test_decode_bOr : decode Params.vectors (ports 0b00000001 0xF0 0x3C 0 (0, []) (0, []) (0, [])) = .ok (.bOr 0xF0 0x3C) := by rfl
theorem test_decode_bXor : decode Params.vectors (ports 0b00000010 0xF0 0x3C 0 (0, []) (0, []) (0, [])) = .ok (.bXor 0xF0 0x3C) := by rfl
theorem test_decode_bNot : decode Params.vectors (ports 0b00000011 0x5A 0x3C 0 (0, []) (0, []) (0, [])) = .ok (.bNot 0x5A) := by rfl
theorem test_decode_bShl : decode Params.vectors (ports 0b00000100 0x11 0x3C 10 (0, []) (0, []) (0, [])) = .ok (.bShl 0x11 10) := by rfl
theorem test_decode_bShr : decode Params.vectors (ports 0b00000101 0x80 0x3C 7 (0, []) (0, []) (0, [])) = .ok (.bShr 0x80 7) := by rfl
theorem test_decode_sAnd : decode Params.vectors (pairPorts 0b00010000) = .ok (.sAnd [0x12, 0x34] [0x0F, 0xF0]) := by rfl
theorem test_decode_sOr : decode Params.vectors (pairPorts 0b00010001) = .ok (.sOr [0x12, 0x34] [0x0F, 0xF0]) := by rfl
theorem test_decode_sXor : decode Params.vectors (pairPorts 0b00010010) = .ok (.sXor [0x12, 0x34] [0x0F, 0xF0]) := by rfl
theorem test_decode_sNot : decode Params.vectors (pairPorts 0b00010011) = .ok (.sNot [0x12, 0x34]) := by rfl
theorem test_decode_sShl : decode Params.vectors (shiftPorts 0b00010100 2) = .ok (.sShl [0x2D, 0xE9, 0x2F, 0xFE] 2) := by rfl
theorem test_decode_sShr : decode Params.vectors (shiftPorts 0b00010101 2) = .ok (.sShr [0x2D, 0xE9, 0x2F, 0xFE] 2) := by rfl
theorem test_decode_parse : decode Params.vectors (ports 0b00100000 0 0 0 (0, []) (0, []) (3, [0x30, 0x20, 0x31, 0x78])) = .ok (.parse [0x30, 0x20, 0x31]) := by rfl

-- Vectors of spec/95_test_vectors.md, one step each

theorem test_bAnd : after (pr (ports 0x00 0xF0 0x3C 0 (0, []) (0, []) (0, []))) = some ⟨0, some [0x30]⟩ := by decide
theorem test_bOr : after (pr (ports 0x01 0xF0 0x3C 0 (0, []) (0, []) (0, []))) = some ⟨0, some [0xFC]⟩ := by decide
theorem test_bXor : after (pr (ports 0x02 0xF0 0x3C 0 (0, []) (0, []) (0, []))) = some ⟨0, some [0xCC]⟩ := by decide
theorem test_bNot : after (pr (ports 0x03 0x5A 0 0 (0, []) (0, []) (0, []))) = some ⟨0, some [0xA5]⟩ := by decide
theorem test_bShl_keeps_low_bits : after (pr (ports 0x04 0x81 0 1 (0, []) (0, []) (0, []))) = some ⟨0, some [0x02]⟩ := by decide
theorem test_bShl_count_not_reduced : after (pr (ports 0x04 0x11 0 10 (0, []) (0, []) (0, []))) = some ⟨0, some [0x00]⟩ := by decide
theorem test_bShr_is_logical : after (pr (ports 0x05 0x81 0 4 (0, []) (0, []) (0, []))) = some ⟨0, some [0x08]⟩ := by decide
theorem test_bShr_by_width : after (pr (ports 0x05 0xFF 0 8 (0, []) (0, []) (0, []))) = some ⟨0, some [0x00]⟩ := by decide
theorem test_sAnd : after (pr (pairPorts 0x10)) = some ⟨0, some [0x02, 0x30]⟩ := by decide
theorem test_sAnd_mismatch : after (pr (unequalPorts 0x10)) = some ⟨1, none⟩ := by decide
theorem test_sOr : after (pr (pairPorts 0x11)) = some ⟨0, some [0x1F, 0xF4]⟩ := by decide
theorem test_sOr_mismatch : after (pr (unequalPorts 0x11)) = some ⟨1, none⟩ := by decide
theorem test_sXor : after (pr (pairPorts 0x12)) = some ⟨0, some [0x1D, 0xC4]⟩ := by decide
theorem test_sXor_mismatch : after (pr (unequalPorts 0x12)) = some ⟨1, none⟩ := by decide
theorem test_sNot_ignores_port_b : after (pr (ports 0x13 0 0 0 (2, [0x12, 0x34]) (15, []) (0, []))) = some ⟨0, some [0xED, 0xCB]⟩ := by decide
theorem test_sNot_empty : after (pr (ports 0x13 0 0 0 (0, []) (0, []) (0, []))) = some ⟨0, some []⟩ := by decide
theorem test_sShl_within_a_lane : after (pr (shiftPorts 0x14 2)) = some ⟨0, some [0xB7, 0xA4, 0xBF, 0xF8]⟩ := by decide
theorem test_sShl_lane_plus_bits : after (pr (shiftPorts 0x14 12)) = some ⟨0, some [0x92, 0xFF, 0xE0, 0x00]⟩ := by decide
theorem test_sShr_within_a_lane : after (pr (shiftPorts 0x15 2)) = some ⟨0, some [0x0B, 0x7A, 0x4B, 0xFF]⟩ := by decide
theorem test_sShr_lane_plus_bits : after (pr (shiftPorts 0x15 12)) = some ⟨0, some [0x00, 0x02, 0xDE, 0x92]⟩ := by decide
theorem test_parse_pads_left : after (pr (textPorts [0x30, 0x31, 0x31, 0x31, 0x30, 0x30])) = some ⟨0, some [0x1C]⟩ := by decide
theorem test_parse_rejects_tab : after (pr (textPorts [0x30, 0x09, 0x31])) = some ⟨2, none⟩ := by decide
theorem test_parse_absent_is_illegal : after (st noParser (textPorts [0x31]) [.present]) = some ⟨4, none⟩ := by decide
theorem test_illegal_before_length : after (pr (ports 0x06 0 0 0 (15, []) (0, []) (0, []))) = some ⟨4, none⟩ := by decide
theorem test_long_a_is_refused : refusal (pr (ports 0x10 0 0 0 (9, []) (2, []) (0, []))) = some (.lengthOutOfRange .a) := by decide
theorem test_long_s_is_refused : refusal (pr (ports 0x20 0 0 0 (0, []) (0, []) (65, []))) = some (.lengthOutOfRange .s) := by decide

-- The pseudo-instructions and the assembler (R63, R64)

/-- The latch after a macro. -/
def afterMacro (m : Macro) : Option Latch :=
  match runMacro m State.reset with
  | .next t => some t.latch
  | .fault _ => none
  | .refused _ => none

theorem test_macro_rol : afterMacro (.sRol [0x81, 0x42] 4) = some ⟨0, some [0x14, 0x28]⟩ := by decide
theorem test_macro_ror : afterMacro (.sRor [0x14, 0x28] 4) = some ⟨0, some [0x81, 0x42]⟩ := by decide
theorem test_assemble_brace_list : (scan (.plain []) (String.ofList ['S', '.', 'N', 'O', 'T', ' ', Char.ofNat 0x7B, '1', ',', '2', Char.ofNat 0x7D]).toList).bind (asmTokens Params.vectors) = some ⟨none, .sNot (.lit [1, 2])⟩ := by decide

-- Witnesses: a concrete state and operands that meet the hypotheses of each obligation

theorem witness_DecodeOfEncode :
    (Instr.sAnd (List.replicate 8 0xFF) []).wellFormed Params.vectors = true ∧
    (Instr.sShl [0x80] 65535).wellFormed Params.vectors = true ∧
    (Instr.parse (List.replicate 64 0x31)).wellFormed Params.vectors = true := by decide

theorem witness_EncodeOfDecode : ∃ i, decode Params.vectors (shiftPorts 0x14 65535) = .ok i := ⟨_, rfl⟩

theorem witness_IllegalOpcodesRespondIllegalOp :
    (Presenting (pr (textPorts [])) [] ∧ ∀ op : Byte, op = 0x06 ∨ op = 0x0F ∨ op = 0x16 ∨ op = 0x1F ∨ op = 0x21 ∨ op = 0x2F ∨ op = 0x30 ∨ op = 0xFF → Unmapped op) ∧
    Presenting (st noParser (textPorts [0x31]) [.present]) [] ∧ noParser.hasParser = false := by decide +kernel

theorem witness_UnreadPortsAreIgnored :
    Presenting (pr (shiftPorts 0x14 2)) [] ∧
    (shiftPorts 0x14 2).SameRequest Params.vectors (ports 0x14 0 0 2 (4, [0x2D, 0xE9, 0x2F, 0xFE]) (0, []) (0, [])) := by decide

theorem witness_LengthAboveBoundIsRefused :
    (readsA 0x15 = true ∧ Params.vectors.lmax < 9) ∧
    (readsB 0x12 = true ∧ 8 ≤ Params.vectors.lmax ∧ 8 ≤ (List.replicate 8 (0 : Byte)).length ∧ Params.vectors.lmax < 9) ∧
    (readsS Params.vectors 0x20 = true ∧ Params.vectors.smax < 65) ∧
    Presenting (pr (ports 0x12 0 0 0 (8, List.replicate 8 0) (9, []) (0, []))) [] := by decide

theorem witness_UnpresentablePortValuesAreRefused :
    Presenting (pr (shiftPorts 0x14 65536)) [] ∧ readsShamt 0x14 = true ∧ 2 ^ Params.vectors.nbits ≤ 65536 ∧
    ((shiftPorts 0x14 65536).a.len ≤ Params.vectors.lmax ∧
      (shiftPorts 0x14 65536).a.len ≤ (shiftPorts 0x14 65536).a.lanes.length) ∧
    (readsShamt 0x05 = true ∧ readsA 0x05 = false) ∧
    Presenting (pr (ports 0x13 0 0 0 (2, [0x12]) (0, []) (0, []))) [] ∧ readsA 0x13 = true ∧ ([0x12] : List Byte).length < 2 ∧
    (Presenting (pr (ports 0x11 0 0 0 (2, [0x12, 0x34]) (2, [0x0F]) (0, []))) [] ∧ readsB 0x11 = true ∧
      2 ≤ Params.vectors.lmax ∧ 2 ≤ ([0x12, 0x34] : List Byte).length ∧ ([0x0F] : List Byte).length < 2) ∧
    Presenting (pr (ports 0x20 0 0 0 (0, []) (0, []) (1, []))) [] ∧ readsS Params.vectors 0x20 = true ∧
    ([] : List Byte).length < 1 := by decide

theorem witness_StepRunsTheDecodedInstruction :
    Presenting (pr (pairPorts 0x11)) [] ∧ ∃ i, decode (pr (pairPorts 0x11)).params (pr (pairPorts 0x11)).ports = .ok i :=
  ⟨rfl, _, rfl⟩

theorem witness_BlockActsOnlyOnCommands :
    State.reset.host = [] ∧ (st Params.vectors (textPorts []) [.drive (pairPorts 0x10)]).host = [.drive (pairPorts 0x10)] := by
  decide

theorem witness_CommandResponseTable : Presenting (pr (unequalPorts 0x12)) [] ∧ ∃ t, step (pr (unequalPorts 0x12)) = .next t :=
  ⟨rfl, _, rfl⟩

theorem witness_ResponseDependsOnTheRequestAlone :
    Presenting (pr (pairPorts 0x11)) [] ∧ Presenting (errWith 4 (pr (pairPorts 0x11))) [] ∧
    SameCommand (pr (pairPorts 0x11)) (errWith 4 (pr (pairPorts 0x11))) ∧
    (NoDraw mayFail (pairPorts 0x11).op ∧ NoDraw noParser 0x20 ∧ NoDraw Params.vectors 0x20) ∧
    (st mayFail (textPorts [0x31]) [.present]).draws = (errWith 2 (st mayFail (textPorts [0x31]) [.present])).draws := by decide

theorem witness_SameRequestTwiceSameResponse :
    (st mayFail (shiftPorts 0x15 7) [.present, .present]).host = [.present, .present] ∧
    NoDraw mayFail (shiftPorts 0x15 7).op ∧
    ∃ t, step (st mayFail (shiftPorts 0x15 7) [.present, .present]) = .next t := ⟨rfl, by decide, _, rfl⟩

theorem witness_InstructionsChangeOnlyTheLatch :
    (∃ t, exec (.parse [0x78]) State.reset = .next t) ∧ State.reset.params.parseValidationMayFail = false ∧
    (∃ t, exec (.sShr [0x80] 7) State.reset = .next t) ∧ ∀ str, Instr.sShr [0x80] 7 ≠ .parse str :=
  ⟨⟨_, rfl⟩, rfl, ⟨_, rfl⟩, fun _ => Instr.noConfusion⟩

theorem witness_ResetEventSetsTheLatchOnly :
    (okWith [0x12] (st Params.vectors (pairPorts 0x10) [.reset, .present])).host = [.reset, .present] := by decide

theorem witness_IdleTellsThatNoCommandCompleted :
    (okWith [0x12] (st Params.vectors (pairPorts 0x10) [.reset, .read .status, .read .rvalid])).host =
      [.reset, .read .status, .read .rvalid] ∧
    (∀ rest, ¬ Presenting (st Params.vectors (textPorts []) [.read .status]) rest) ∧
    (∃ t, step (st Params.vectors (textPorts []) [.read .status]) = .next t) ∧
    (st Params.vectors (textPorts []) [.read .status]).latch = ⟨7, none⟩ ∧
    Presenting (pr (pairPorts 0x10)) [] ∧ ∃ t, step (pr (pairPorts 0x10)) = .next t :=
  ⟨rfl, by simp [st], ⟨_, rfl⟩, rfl, rfl, _, rfl⟩

theorem witness_ResetDoesNotChangeResponses :
    (errWith 1 (st mayFail (textPorts [0x30]) [.reset, .present])).host = [.reset, .present] := by decide

theorem witness_LatchHoldsAndReadsAreFree :
    (∃ t, step (pr (pairPorts 0x10)) = .next t ∧ t.latch ≠ (pr (pairPorts 0x10)).latch) ∧
    (okWith [0x12, 0x34] (st Params.vectors (textPorts []) [.read (.lane 1)])).host = [.read (.lane 1)] ∧
    (okWith [0x12, 0x34] (st Params.vectors (textPorts []) [.read (.lane 1)])).latch.read (.lane 1) = some 0x34 :=
  ⟨⟨_, rfl, by decide⟩, rfl, rfl⟩

theorem witness_ReadsSeeTheResponse :
    0 < ([0x12] : ByteSeq).length ∧
    (st Params.vectors (textPorts []) [.read .rlen]).latch.result = none ∧
    (st Params.vectors (textPorts []) [.read .rlen]).host = [.read .rlen] ∧
    (st Params.vectors (textPorts []) [.read (.lane 0)]).latch.result = none ∧
    (st Params.vectors (textPorts []) [.read (.lane 0)]).host = [.read (.lane 0)] ∧
    (okWith [0x12] (st Params.vectors (textPorts []) [.read (.lane 1)])).latch.result = some [0x12] ∧
    (okWith [0x12] (st Params.vectors (textPorts []) [.read (.lane 1)])).host = [.read (.lane 1)] := by decide

theorem witness_EveryStepKeepsTheLatchLegal :
    (pr (pairPorts 0x10)).Inv ∧ ∃ t, step (pr (pairPorts 0x10)) = .next t := ⟨by decide +kernel, _, rfl⟩

theorem witness_ResetLatchIsLegal : Params.Valid ⟨1, 1, 8, true, true⟩ := by decide

theorem witness_FetchedTableWordsRun :
    State.reset.params.hasParser = true ∧ decodeTableWord 8 0x20 = some (.parse []) := by decide

theorem witness_ByteOpcodes :
    (ports 0x00 0xF0 0x3C 0 (0, []) (0, []) (0, [])).op = 0x00 ∧ (ports 0x01 0xF0 0x3C 0 (0, []) (0, []) (0, [])).op = 0x01 ∧
    (ports 0x02 0xF0 0x3C 0 (0, []) (0, []) (0, [])).op = 0x02 ∧ (ports 0x03 0xF0 0x3C 0 (0, []) (0, []) (0, [])).op = 0x03 := by
  decide

theorem witness_ByteShiftLeftIsLogical :
    (ports 0x04 0x11 0 65535 (0, []) (0, []) (0, [])).op = 0x04 ∧ 65535 < 2 ^ Params.vectors.nbits ∧
    (exec (.bShl 0x81 7) State.reset = .next (okWith [0x80] State.reset)) ∧
    (exec (.bShl 0x81 8) State.reset = .next (okWith [0x00] State.reset)) := ⟨rfl, by decide, rfl, rfl⟩

theorem witness_ByteShiftRightIsLogical :
    (ports 0x05 0x11 0 65535 (0, []) (0, []) (0, [])).op = 0x05 ∧ 65535 < 2 ^ Params.vectors.nbits ∧
    (exec (.bShr 0x81 7) State.reset = .next (okWith [0x01] State.reset)) ∧
    (exec (.bShr 0x81 8) State.reset = .next (okWith [0x00] State.reset)) := ⟨rfl, by decide, rfl, rfl⟩

theorem witness_ByteCommandsAlwaysSucceed :
    Presenting (pr (ports 0x05 0xFF 0 65535 (9, []) (9, []) (65, []))) [] ∧ (0x05 : Byte).toNat ≤ 0x05 ∧
    65535 < 2 ^ Params.vectors.nbits ∧ readsShamt 0x02 = false := by decide

theorem witness_ByteShiftCountSaturatesAtEight :
    exec (.bShl 0xFF 8) State.reset = .next (okWith [0x00] State.reset) ∧
    exec (.bShr 0xFF 7) State.reset = .next (okWith [0x01] State.reset) := ⟨rfl, rfl⟩

theorem witness_SequenceTwoOperands :
    (Presents Params.vectors.lmax (pairPorts 0x10).a [0x12, 0x34] ∧ Presents Params.vectors.lmax (pairPorts 0x10).b [0x0F, 0xF0]) ∧
    (pairPorts 0x10).op = 0x10 ∧ (pairPorts 0x11).op = 0x11 ∧ (pairPorts 0x12).op = 0x12 ∧
    ([] : ByteSeq).length ≠ ([0x00] : ByteSeq).length ∧ ([0x12] : ByteSeq).length = ([0xF0] : ByteSeq).length := by decide

theorem witness_SequenceNotIsLaneWise :
    (pairPorts 0x13).op = 0x13 ∧ Presents Params.vectors.lmax (pairPorts 0x13).a [0x12, 0x34] := by decide

theorem witness_LengthMismatchDecidedByLengthFields :
    (Presenting (pr (unequalPorts 0x12)) [] ∧ (unequalPorts 0x12).op = 0x12 ∧
      Presents Params.vectors.lmax (unequalPorts 0x12).a [0x12] ∧ Presents Params.vectors.lmax (unequalPorts 0x12).b [0x0F, 0xF0] ∧
      (unequalPorts 0x12).a.len ≠ (unequalPorts 0x12).b.len) ∧
    (Presenting (pr (ports 0x10 0 0 0 (0, []) (0, []) (0, []))) [] ∧
      Presents Params.vectors.lmax ⟨0, []⟩ [] ∧ (0 : Nat) = 0) := by decide

theorem witness_SequenceCommandsKeepLength :
    Presenting (pr (shiftPorts 0x15 9)) [] ∧ (0x10 ≤ (0x15 : Byte).toNat ∧ (0x15 : Byte).toNat ≤ 0x15) ∧
    ∃ t r, step (pr (shiftPorts 0x15 9)) = .next t ∧ t.latch.result = some r := ⟨rfl, by decide, _, _, rfl, rfl⟩

theorem witness_ShiftLaneForms :
    exec (.sShl [0x80, 0x01] (8 * 1 + 7)) State.reset = .next (okWith [0x80, 0x00] State.reset) ∧
    exec (.sShr [0x80, 0x01] (8 * 0 + 7)) State.reset = .next (okWith [0x01, 0x00] State.reset) := ⟨rfl, rfl⟩

theorem witness_ShiftByTheWidthClears : 8 * ([0xFF, 0xFF] : ByteSeq).length ≤ 16 ∧ 8 * ([] : ByteSeq).length ≤ 0 := by decide

theorem witness_ShiftByWholeLanesMovesLanes : 2 ≤ ([0xFF, 0xFF] : ByteSeq).length := by decide

theorem witness_ParseValueAndLength :
    Params.vectors.hasParser = true ∧ Params.vectors.parseValidationMayFail = false ∧
    (∀ c ∈ ([0x20, 0x31, 0x30, 0x20] : ByteSeq), ¬ BadOctet c) ∧
    exec (.parse [0x20, 0x31, 0x30, 0x20]) State.reset = .next (okWith [0x02] State.reset) ∧
    (okWith [0x02] State.reset).latch.status = 0 := ⟨by decide, by decide, by decide, rfl, rfl⟩

theorem witness_BadFormatExactlyOnBadOctets :
    (∃ t, exec (.parse [0x31, 0x78]) State.reset = .next t ∧ t.latch.status = 2) ∧
    State.reset.params.hasParser = true ∧ State.reset.params.parseValidationMayFail = false ∧
    ∃ c ∈ ([0x31, 0x78] : ByteSeq), BadOctet c := ⟨⟨_, rfl, by decide⟩, rfl, rfl, by decide⟩

theorem witness_ValidationFailureIsAFreeDraw :
    (mayFail.hasParser = true ∧ mayFail.parseValidationMayFail = true) ∧
    Params.vectors.parseValidationMayFail = false ∧ ∃ t, exec (.parse []) State.reset = .next t := ⟨by decide, rfl, _, rfl⟩

theorem witness_ParseWithoutParserIsIllegal :
    (noParser.hasParser = false ∧ (textPorts [0x31]).op = 0x20) ∧
    Params.vectors.hasParser = true ∧ Presents Params.vectors.smax (textPorts [0x31]).s [0x31] := by decide

theorem witness_ParseIgnoresSpaces :
    (State.reset.params.hasParser = true ∧ State.reset.params.parseValidationMayFail = false) ∧
    exec (.parse (List.replicate 2 0x20)) State.reset = .next (okWith [] State.reset) := ⟨by decide, rfl⟩

theorem witness_ParseResultAlwaysFits :
    State.reset.params.Valid ∧ (Instr.parse (List.replicate 64 0x31)).wellFormed State.reset.params = true ∧
    ∃ t r, exec (.parse (List.replicate 64 0x31)) State.reset = .next t ∧ t.latch.result = some r :=
  ⟨by decide, by decide, _, _, rfl, rfl⟩

theorem witness_MacroClearGivesZero : (List.replicate 8 (0xFF : Byte)).length ≤ State.reset.params.lmax := by decide

theorem witness_MacroAndnMasks :
    (([0x12] : ByteSeq).length = ([0xF0] : ByteSeq).length ∧ ([0x12] : ByteSeq).length ≤ State.reset.params.lmax) ∧
    ([0x12] : ByteSeq).length ≠ ([] : ByteSeq).length := by decide

theorem witness_MacroRotate :
    (List.replicate 8 (0x81 : Byte)).length ≤ State.reset.params.lmax ∧ 0 < 63 ∧ 63 < 8 * (List.replicate 8 (0x81 : Byte)).length ∧
    63 < 2 ^ State.reset.params.nbits ∧ 8 * (List.replicate 8 (0x81 : Byte)).length - 63 < 2 ^ State.reset.params.nbits ∧
    (12 < 2 ^ 4 ∧ 8 * ([0x81, 0x42, 0x24] : ByteSeq).length - 12 < 2 ^ 4) := by decide

theorem witness_LinesPresentTheirCommands :
    ((SeqArg.named ['m']).value [(['m'], [0x0F])] = some [0x0F] ∧ (SeqArg.lit []).value [(['m'], [0x0F])] = some []) ∧
    (Instr.sShl [0x0F] 65535).wellFormed State.reset.params = true ∧
    ∃ e t, runLine ⟨some ['r'], .sClr (.named ['m'])⟩ [(['m'], [0x0F])] State.reset = .next (e, t) :=
  ⟨by decide, by decide, _, _, rfl⟩

theorem witness_NamedResultsAreCopiedByTheHost :
    ((AsmCommand.sAnd (.named ['m']) (.lit [])).resolve [(['m'], [0x0F])] = some (.instr (.sAnd [0x0F] [])) ∧
      ∃ t, runHostCommand (.instr (.sAnd [0x0F] [])) State.reset = .next t ∧ t.latch = ⟨1, none⟩) ∧
    (SeqArg.named ['m']).value [(['m'], [0x0F])] = (SeqArg.lit [0x0F]).value [(['m'], [0x0F])] ∧
    (SeqArg.named ['M']).value [(['m'], [0x0F])] = none ∧
    (SeqArg.named ['m']).value [(['m'], [0x0F])] = some [0x0F] ∧ ([0x0F] : ByteSeq).length ≤ State.reset.params.lmax :=
  ⟨⟨rfl, _, rfl, rfl⟩, by decide, by decide, by decide, by decide⟩

end Sys2Proof.Tests
end

section
/-! PROOFS. Which requests the decoder turns away, by the port that the opcode reads. -/

namespace Sys2Proof

/-- The port can carry what its length field says, within the port's bound (R31; log entry 6). -/
abbrev SeqPort.InRange (bound : Nat) (q : SeqPort) : Prop := q.len ≤ bound ∧ q.len ≤ q.lanes.length

section formErrors
variable {p : Params} {r : Ports}

theorem seqOperand_of_inRange {bound : Nat} {q : SeqPort} (port : PortName) (h : q.InRange bound) :
    seqOperand bound port q = .ok (q.lanes.take q.len) := seqOperand_ok.mpr ⟨h.1, h.2, rfl⟩

theorem seqOperand_of_not_inRange {bound : Nat} {q : SeqPort} (port : PortName) (h : ¬ q.InRange bound) :
    seqOperand bound port q = .error (.lengthOutOfRange port) := seqOperand_error.mpr ⟨h, rfl⟩

theorem countOperand_of_wide {k : Nat} (h : 2 ^ p.nbits ≤ k) : countOperand p k = .error .countOutOfRange :=
  countOperand_error.mpr ⟨h.not_gt, rfl⟩

theorem byteAndCount_of_wide (mk : Byte → Nat → Instr) (h : 2 ^ p.nbits ≤ r.shamt) :
    byteAndCount p r mk = .error .countOutOfRange := by
  simp only [byteAndCount, countOperand_of_wide h, bind, Except.bind]

theorem sequenceAndCount_of_wide (mk : ByteSeq → Nat → Instr) (ha : r.a.InRange p.lmax) (h : 2 ^ p.nbits ≤ r.shamt) :
    sequenceAndCount p r mk = .error .countOutOfRange := by
  simp only [sequenceAndCount, seqOperand_of_inRange .a ha, countOperand_of_wide h, bind, Except.bind]

theorem sequenceAndCount_of_a_not_inRange (mk : ByteSeq → Nat → Instr) (h : ¬ r.a.InRange p.lmax) :
    sequenceAndCount p r mk = .error (.lengthOutOfRange .a) := by
  simp only [sequenceAndCount, seqOperand_of_not_inRange .a h, bind, Except.bind]

theorem oneSequence_of_a_not_inRange (mk : ByteSeq → Instr) (h : ¬ r.a.InRange p.lmax) :
    oneSequence p r mk = .error (.lengthOutOfRange .a) := by
  simp only [oneSequence, seqOperand_of_not_inRange .a h, bind, Except.bind]

theorem twoSequences_of_a_not_inRange (mk : ByteSeq → ByteSeq → Instr) (h : ¬ r.a.InRange p.lmax) :
    twoSequences p r mk = .error (.lengthOutOfRange .a) := by
  simp only [twoSequences, seqOperand_of_not_inRange .a h, bind, Except.bind]

theorem twoSequences_of_b_not_inRange (mk : ByteSeq → ByteSeq → Instr) (ha : r.a.InRange p.lmax)
    (h : ¬ r.b.InRange p.lmax) : twoSequences p r mk = .error (.lengthOutOfRange .b) := by
  simp only [twoSequences, seqOperand_of_inRange .a ha, seqOperand_of_not_inRange .b h, bind, Except.bind]

theorem oneString_of_s_not_inRange (mk : ByteSeq → Instr) (h : ¬ r.s.InRange p.smax) :
    oneString p r mk = .error (.lengthOutOfRange .s) := by
  simp only [oneString, seqOperand_of_not_inRange .s h, bind, Except.bind]

end formErrors

section readers
variable {p : Params} {r : Ports}

/-- The opcodes that read port A (R20), one by one. -/
theorem readsA_iff {op : Byte} :
    readsA op = true ↔ (op = 0x10 ∨ op = 0x11 ∨ op = 0x12) ∨ op = 0x13 ∨ op = 0x14 ∨ op = 0x15 := by
  simp only [readsA, Bool.and_eq_true, decide_eq_true_eq]
  bv_omega

/-- The opcodes that read port B (R20), one by one. -/
theorem readsB_iff {op : Byte} : readsB op = true ↔ op = 0x10 ∨ op = 0x11 ∨ op = 0x12 := by
  simp only [readsB, Bool.and_eq_true, decide_eq_true_eq]
  bv_omega

/-- The opcodes that read `SHAMT` (R20): the byte shifts, and the sequence shifts. -/
theorem readsShamt_iff {op : Byte} :
    readsShamt op = true ↔ (op = 0x04 ∨ op = 0x05) ∨ op = 0x14 ∨ op = 0x15 := by
  simp only [readsShamt, Bool.or_eq_true, beq_iff_eq, or_assoc]

/-- The opcodes that read port B have the form "two sequences" (R54). -/
theorem decode_of_readsB (h : readsB r.op = true) : ∃ mk, decode p r = twoSequences p r mk := by
  rcases readsB_iff.mp h with h | h | h
  · exact ⟨_, decode_sAnd h⟩
  · exact ⟨_, decode_sOr h⟩
  · exact ⟨_, decode_sXor h⟩

/-- The opcodes that read port A have one of the three forms with a sequence (R54). -/
theorem decode_of_readsA (h : readsA r.op = true) :
    (∃ mk, decode p r = twoSequences p r mk) ∨ (∃ mk, decode p r = oneSequence p r mk) ∨
      ∃ mk, decode p r = sequenceAndCount p r mk := by
  rcases readsA_iff.mp h with h | h | h | h
  · exact .inl (decode_of_readsB (readsB_iff.mpr h))
  · exact .inr (.inl ⟨_, decode_sNot h⟩)
  · exact .inr (.inr ⟨_, decode_sShl h⟩)
  · exact .inr (.inr ⟨_, decode_sShr h⟩)

/-- The opcodes that read `SHAMT` have one of the two forms with a count (R54); beside a sequence, they read port A. -/
theorem decode_of_readsShamt (h : readsShamt r.op = true) :
    (∃ mk, decode p r = byteAndCount p r mk) ∨
      (readsA r.op = true ∧ ∃ mk, decode p r = sequenceAndCount p r mk) := by
  rcases readsShamt_iff.mp h with (h | h) | h | h
  · exact .inl ⟨_, decode_bShl h⟩
  · exact .inl ⟨_, decode_bShr h⟩
  · exact .inr ⟨by rw [h]; rfl, _, decode_sShl h⟩
  · exact .inr ⟨by rw [h]; rfl, _, decode_sShr h⟩

/-- `PARSE`'s opcode in a block with a parser has the form "one string" (R54, R61). -/
theorem decode_of_readsS (h : readsS p r.op = true) : decode p r = oneString p r .parse := by
  simp only [readsS, Bool.and_eq_true, beq_iff_eq] at h
  obtain ⟨hp, hop⟩ := h
  rw [decode_parse hop, if_pos hp]

/-- A count too wide for `SHAMT` (R8), where the sequence beside it is in range. -/
theorem decode_of_count_wide (hr : readsShamt r.op = true) (ha : readsA r.op = true → r.a.InRange p.lmax)
    (h : 2 ^ p.nbits ≤ r.shamt) : decode p r = .error .countOutOfRange := by
  rcases decode_of_readsShamt (p := p) hr with ⟨mk, hd⟩ | ⟨hra, mk, hd⟩
  · rw [hd, byteAndCount_of_wide mk h]
  · rw [hd, sequenceAndCount_of_wide mk (ha hra) h]

/-- Port A is the first that a form with a sequence reads: out of range, nothing else matters (R116 step 2). -/
theorem decode_of_a_not_inRange (hr : readsA r.op = true) (h : ¬ r.a.InRange p.lmax) :
    decode p r = .error (.lengthOutOfRange .a) := by
  rcases decode_of_readsA (p := p) hr with ⟨mk, hd⟩ | ⟨mk, hd⟩ | ⟨mk, hd⟩
  · rw [hd, twoSequences_of_a_not_inRange mk h]
  · rw [hd, oneSequence_of_a_not_inRange mk h]
  · rw [hd, sequenceAndCount_of_a_not_inRange mk h]

theorem decode_of_b_not_inRange (hr : readsB r.op = true) (ha : r.a.InRange p.lmax) (h : ¬ r.b.InRange p.lmax) :
    decode p r = .error (.lengthOutOfRange .b) := by
  obtain ⟨mk, hd⟩ := decode_of_readsB (p := p) hr
  rw [hd, twoSequences_of_b_not_inRange mk ha h]

theorem decode_of_s_not_inRange (hr : readsS p r.op = true) (h : ¬ r.s.InRange p.smax) :
    decode p r = .error (.lengthOutOfRange .s) := by
  rw [decode_of_readsS hr, oneString_of_s_not_inRange .parse h]

end readers

section decodedFits
variable {p : Params} {r : Ports} {i : Instr}

/-- A port in range presents a sequence within the port's bound (R21, R31). -/
theorem operand_length_le {bound : Nat} {q : SeqPort} (h : q.InRange bound) : (q.lanes.take q.len).length ≤ bound :=
  (List.length_take_le _ _).trans h.1

theorem seqFits_operand {q : SeqPort} (h : q.InRange p.lmax) : seqFits p (q.lanes.take q.len) = true :=
  decide_eq_true (operand_length_le h)

theorem stringFits_operand {q : SeqPort} (h : q.InRange p.smax) : stringFits p (q.lanes.take q.len) = true :=
  decide_eq_true (operand_length_le h)

theorem byteAndCount_wellFormed {mk : Byte → Nat → Instr} (hmk : ∀ b n, (mk b n).wellFormed p = countFits p n)
    (h : byteAndCount p r mk = .ok i) : i.wellFormed p = true := by
  obtain ⟨hn, rfl⟩ := byteAndCount_ok.mp h
  rw [hmk]
  exact decide_eq_true hn

theorem twoSequences_wellFormed {mk : ByteSeq → ByteSeq → Instr}
    (hmk : ∀ x y, (mk x y).wellFormed p = (seqFits p x && seqFits p y)) (h : twoSequences p r mk = .ok i) :
    i.wellFormed p = true := by
  obtain ⟨ha, hb, rfl⟩ := twoSequences_ok.mp h
  rw [hmk, seqFits_operand ha, seqFits_operand hb, Bool.and_self]

theorem oneSequence_wellFormed {mk : ByteSeq → Instr} (hmk : ∀ x, (mk x).wellFormed p = seqFits p x)
    (h : oneSequence p r mk = .ok i) : i.wellFormed p = true := by
  obtain ⟨ha, rfl⟩ := oneSequence_ok.mp h
  rw [hmk, seqFits_operand ha]

theorem sequenceAndCount_wellFormed {mk : ByteSeq → Nat → Instr}
    (hmk : ∀ x n, (mk x n).wellFormed p = (seqFits p x && countFits p n)) (h : sequenceAndCount p r mk = .ok i) :
    i.wellFormed p = true := by
  obtain ⟨ha, hn, rfl⟩ := sequenceAndCount_ok.mp h
  rw [hmk, seqFits_operand ha, Bool.true_and]
  exact decide_eq_true hn

theorem oneString_wellFormed {mk : ByteSeq → Instr} (hmk : ∀ x, (mk x).wellFormed p = stringFits p x)
    (h : oneString p r mk = .ok i) : i.wellFormed p = true := by
  obtain ⟨hs, rfl⟩ := oneString_ok.mp h
  rw [hmk, stringFits_operand hs]

/-- What the decoder answers fits the block (R8, R9, R31): each operand form checks the bounds of what it reads. -/
theorem decode_wellFormed (h : decode p r = .ok i) : i.wellFormed p = true := by
  rcases decode_cases p r with ⟨-, hd⟩ | ⟨-, hd⟩ | ⟨-, hd⟩ | ⟨-, hd⟩ | ⟨-, hd⟩ | ⟨-, hd⟩ | ⟨-, hd⟩ | ⟨-, hd⟩ |
    ⟨-, hd⟩ | ⟨-, hd⟩ | ⟨-, hd⟩ | ⟨-, hd⟩ | ⟨-, hp, hd⟩ | ⟨-, hd⟩ <;> rw [hd] at h
  · cases h; rfl
  · cases h; rfl
  · cases h; rfl
  · cases h; rfl
  · exact byteAndCount_wellFormed (fun _ _ => rfl) h
  · exact byteAndCount_wellFormed (fun _ _ => rfl) h
  · exact twoSequences_wellFormed (fun _ _ => rfl) h
  · exact twoSequences_wellFormed (fun _ _ => rfl) h
  · exact twoSequences_wellFormed (fun _ _ => rfl) h
  · exact oneSequence_wellFormed (fun _ => rfl) h
  · exact sequenceAndCount_wellFormed (fun _ _ => rfl) h
  · exact sequenceAndCount_wellFormed (fun _ _ => rfl) h
  · exact oneString_wellFormed (fun _ => by simp only [Instr.wellFormed, hp, Bool.true_and]) h
  · cases h

end decodedFits

end Sys2Proof

namespace Sys2Proof.Machine

/-- A presented command that the decoder turns away is answered by `rejectRequest` (R116 steps 1 and 2). -/
theorem step_of_decode_error {s : State} {rest : List HostAction} {e : Reject} (hh : s.host = .present :: rest)
    (hd : decode s.params s.ports = .error e) : step s = rejectRequest e (takeAction rest s) := by
  rw [step_present hh]
  simp only [performCommand, fetch, takeAction_params, takeAction_ports, hd]

end Sys2Proof.Machine

namespace Sys2Proof.Claims
open Sys2Proof.Machine

/-- Settles O7: the decoder finds the value that no port carries, and the step refuses it by that name. -/
theorem unpresentablePortValuesAreRefused : Obligations.UnpresentablePortValuesAreRefused := by
  intro s rest hpres
  refine ⟨fun hr hn ha => ?_, fun hr hl => ?_, fun hr ha ha' hl => ?_, fun hr hl => ?_⟩
  · exact step_of_decode_error hpres (decode_of_count_wide hr ha hn)
  · exact step_of_decode_error hpres (decode_of_a_not_inRange hr fun hin => hl.not_ge hin.2)
  · exact step_of_decode_error hpres (decode_of_b_not_inRange hr ⟨ha, ha'⟩ fun hin => hl.not_ge hin.2)
  · exact step_of_decode_error hpres (decode_of_s_not_inRange hr fun hin => hl.not_ge hin.2)

end Sys2Proof.Claims
end

section
/-! PROOFS. The invariant of the latch, operation by operation and then step by step. -/

namespace Sys2Proof.Machine

section legal
variable {p : Params}

/-- A result with `OK` is legal exactly within `LMAX` lanes (R29, R110). -/
theorem legal_ok_iff {r : ByteSeq} : Latch.Legal p ⟨statusOk, some r⟩ ↔ r.length ≤ p.lmax := by
  simp [Latch.Legal, Latch.rvalid, Latch.rlen, reservedStatus, statusOk, statusBadFormat, statusValidationFailure]

/-- Without a result only the code counts: not reserved, not `OK`, and the parser's two errors only where the
parameters allow them. -/
theorem legal_none_iff {c : StatusCode} :
    Latch.Legal p ⟨c, none⟩ ↔ reservedStatus c = false ∧ c ≠ statusOk ∧ (c = statusBadFormat → p.hasParser = true) ∧
      (c = statusValidationFailure → p.hasParser = true ∧ p.parseValidationMayFail = true) := by
  simp [Latch.Legal, Latch.rvalid, Latch.rlen]

/-- The codes that no parameter limits. -/
theorem legal_of_not_parserError {c : StatusCode}
    (h : reservedStatus c = false ∧ c ≠ statusOk ∧ c ≠ statusBadFormat ∧ c ≠ statusValidationFailure) :
    Latch.Legal p ⟨c, none⟩ := by
  obtain ⟨hres, hok, hbad, hval⟩ := h
  exact legal_none_iff.mpr ⟨hres, hok, fun e => absurd e hbad, fun e => absurd e hval⟩

theorem legal_lengthMismatch : Latch.Legal p ⟨statusLengthMismatch, none⟩ := legal_of_not_parserError (by decide)

theorem legal_illegalOp : Latch.Legal p ⟨statusIllegalOp, none⟩ := legal_of_not_parserError (by decide)

theorem legal_idle : Latch.idle.Legal p := legal_of_not_parserError (by decide)

theorem legal_badFormat (hp : p.hasParser = true) : Latch.Legal p ⟨statusBadFormat, none⟩ :=
  legal_none_iff.mpr ⟨by decide, by decide, fun _ => hp, fun e => absurd e (by decide)⟩

theorem legal_validationFailure (hp : p.hasParser = true) (hf : p.parseValidationMayFail = true) :
    Latch.Legal p ⟨statusValidationFailure, none⟩ :=
  legal_none_iff.mpr ⟨by decide, by decide, fun _ => hp, fun _ => ⟨hp, hf⟩⟩

end legal

section operations
variable {s t : State}

/-- Every command writes the whole latch, so the invariant after it rests on nothing the latch held before. -/
theorem inv_of_complete {r : ByteSeq} (hv : s.params.Valid) (hr : r.length ≤ s.params.lmax)
    (h : complete r s = .next t) : t.Inv := by
  rw [complete_eq_next] at h
  subst h
  exact ⟨hv, legal_ok_iff.mpr hr⟩

theorem inv_of_fail {c : StatusCode} (hv : s.params.Valid) (hc : Latch.Legal s.params ⟨c, none⟩)
    (h : fail c s = .next t) : t.Inv := by
  rw [fail_eq_next] at h
  subst h
  exact ⟨hv, hc⟩

/-- One byte fits, because `LMAX` is at least 1 (R7, R65). -/
theorem inv_of_respondByte {b : Byte} (hv : s.params.Valid) (h : respondByte b s = .next t) : t.Inv :=
  inv_of_complete (r := [b]) hv hv.1 h

theorem laneWise_length_le (f : Byte → Byte → Byte) (x y : ByteSeq) : (laneWise f x y).length ≤ x.length := by
  simp only [laneWise, List.length_zipWith, Nat.min_le_left]

theorem inv_of_execLaneWise {f : Byte → Byte → Byte} {x y : ByteSeq} (hv : s.params.Valid)
    (hx : x.length ≤ s.params.lmax) (h : execLaneWise f x y s = .next t) : t.Inv := by
  unfold execLaneWise at h
  split at h
  · exact inv_of_complete hv ((laneWise_length_le f x y).trans hx) h
  · exact inv_of_fail hv legal_lengthMismatch h

/-- A string of at most `8*LMAX` octets converts to at most `LMAX` lanes (R105): stripping only shortens it. -/
theorem digitsToBytes_strip_length_le {str : ByteSeq} {n : Nat} (h : str.length ≤ 8 * n) :
    (digitsToBytes (strip str)).length ≤ n := by
  have hstrip := strip_length_le str
  rw [digitsToBytes_length]
  omega

theorem inv_of_parseString {str : ByteSeq} (hv : s.params.Valid) (hp : s.params.hasParser = true)
    (hs : str.length ≤ s.params.smax) (h : parseString str s = .next t) : t.Inv := by
  unfold parseString at h
  split at h
  · exact inv_of_complete hv (digitsToBytes_strip_length_le (hs.trans (hv.2.2 hp))) h
  · exact inv_of_fail hv (legal_badFormat hp) h

/-- `PARSE` in a block with a parser, on a string that fits port S, whichever way the free draw of R106 falls. -/
theorem inv_of_execParse {str : ByteSeq} (hv : s.params.Valid) (hp : s.params.hasParser = true)
    (hs : str.length ≤ s.params.smax) (h : execParse str s = .next t) : t.Inv := by
  unfold execParse at h
  rw [if_neg (by simp [hp])] at h
  split at h
  · exact inv_of_parseString hv hp hs h
  · next hf =>
    have hmay : s.params.parseValidationMayFail = true := by simpa using hf
    split at h
    · exact inv_of_fail (s := takeDraw s) hv (legal_validationFailure hp hmay) h
    · exact inv_of_parseString (s := takeDraw s) hv hp hs h

/-- An instruction that fits the block leaves a latch that the block can hold. -/
theorem inv_of_exec {i : Instr} (hv : s.params.Valid) (hi : i.wellFormed s.params = true) (h : exec i s = .next t) :
    t.Inv := by
  cases i with
  | bAnd a b | bOr a b | bXor a b | bNot a | bShl a n | bShr a n => exact inv_of_respondByte hv h
  | sAnd x y | sOr x y | sXor x y =>
    simp only [Instr.wellFormed, seqFits, Bool.and_eq_true, decide_eq_true_eq] at hi
    exact inv_of_execLaneWise hv hi.1 h
  | sNot x =>
    have hx : x.length ≤ s.params.lmax := of_decide_eq_true hi
    exact inv_of_complete hv (by simpa [seqNot] using hx) h
  | sShl x n | sShr x n =>
    simp only [Instr.wellFormed, seqFits, Bool.and_eq_true, decide_eq_true_eq] at hi
    exact inv_of_complete hv (by simpa using hi.1) h
  | parse str =>
    simp only [Instr.wellFormed, stringFits, Bool.and_eq_true, decide_eq_true_eq] at hi
    exact inv_of_execParse hv hi.1 hi.2 h

/-- A presented command that gets a response is an instruction that fits the block, or an illegal opcode (R114). -/
theorem inv_of_performCommand (hv : s.params.Valid) (h : performCommand s = .next t) : t.Inv := by
  rcases performCommand_next h with ⟨i, hd, hexec⟩ | ⟨-, rfl⟩
  · exact inv_of_exec hv (decode_wellFormed hd) hexec
  · exact ⟨hv, legal_illegalOp⟩

end operations

end Sys2Proof.Machine

namespace Sys2Proof.Claims
open Sys2Proof.Machine

/-- Settles O21, by the host action that the step performs: a command and a reset write a legal latch, every other
action leaves the latch as it is, and none writes the parameters. -/
theorem everyStepKeepsTheLatchLegal : Obligations.EveryStepKeepsTheLatchLegal := by
  intro s t hinv hstep
  obtain ⟨hvalid, hlegal⟩ := hinv
  rcases step_next hstep with ⟨-, rfl⟩ | ⟨r, rest, -, rfl⟩ | ⟨rest, -, hcmd⟩ | ⟨f, rest, v, -, -, rfl⟩ | ⟨rest, -, rfl⟩
  case inl => exact ⟨hvalid, hlegal⟩
  case inr.inl => exact ⟨hvalid, hlegal⟩
  case inr.inr.inl => exact inv_of_performCommand (s := takeAction rest s) hvalid hcmd
  case inr.inr.inr.inl => exact ⟨hvalid, hlegal⟩
  case inr.inr.inr.inr => exact ⟨hvalid, legal_idle⟩

end Sys2Proof.Claims
end

section
/-! PROOFS. The decoder reads no more of the ports than the opcode names, and it answers exactly where those are in
range. -/

namespace Sys2Proof

section agreement
variable {p : Params} {r r' : Ports}

/-- Two ports that present one operand have lanes enough for it, or both have too few. -/
theorem SeqPort.SameOperand.inRange_iff {bound : Nat} {q q' : SeqPort} (h : q.SameOperand q') :
    q.InRange bound ↔ q'.InRange bound := by
  obtain ⟨hlen, htake⟩ := h
  have hcount := congrArg List.length htake
  simp only [List.length_take] at hcount
  simp only [SeqPort.InRange]
  omega

theorem seqOperand_congr (bound : Nat) (port : PortName) {q q' : SeqPort} (h : q.SameOperand q') :
    seqOperand bound port q = seqOperand bound port q' := by
  by_cases hin : q.InRange bound
  · rw [seqOperand_of_inRange port hin, seqOperand_of_inRange port (h.inRange_iff.mp hin), h.2]
  · rw [seqOperand_of_not_inRange port hin, seqOperand_of_not_inRange port (mt h.inRange_iff.mpr hin)]

theorem byteAndCount_congr (mk : Byte → Nat → Instr) (hba : r.ba = r'.ba) (hn : r.shamt = r'.shamt) :
    byteAndCount p r mk = byteAndCount p r' mk := by
  simp only [byteAndCount, hba, hn]

theorem twoSequences_congr (mk : ByteSeq → ByteSeq → Instr) (ha : r.a.SameOperand r'.a) (hb : r.b.SameOperand r'.b) :
    twoSequences p r mk = twoSequences p r' mk := by
  simp only [twoSequences, seqOperand_congr _ _ ha, seqOperand_congr _ _ hb]

theorem oneSequence_congr (mk : ByteSeq → Instr) (ha : r.a.SameOperand r'.a) :
    oneSequence p r mk = oneSequence p r' mk := by
  simp only [oneSequence, seqOperand_congr _ _ ha]

theorem sequenceAndCount_congr (mk : ByteSeq → Nat → Instr) (ha : r.a.SameOperand r'.a) (hn : r.shamt = r'.shamt) :
    sequenceAndCount p r mk = sequenceAndCount p r' mk := by
  simp only [sequenceAndCount, seqOperand_congr _ _ ha, hn]

theorem oneString_congr (mk : ByteSeq → Instr) (hs : r.s.SameOperand r'.s) :
    oneString p r mk = oneString p r' mk := by
  simp only [oneString, seqOperand_congr _ _ hs]

/-- The ports that the opcode does not read do not reach the command (R21, R54): row by row of R58. -/
theorem decode_congr (h : r.SameRequest p r') : decode p r = decode p r' := by
  obtain ⟨hop, hba, hbb, hn, ha, hb, hs⟩ := h
  rcases decode_cases p r with ⟨c, hd⟩ | ⟨c, hd⟩ | ⟨c, hd⟩ | ⟨c, hd⟩ | ⟨c, hd⟩ | ⟨c, hd⟩ | ⟨c, hd⟩ | ⟨c, hd⟩ |
    ⟨c, hd⟩ | ⟨c, hd⟩ | ⟨c, hd⟩ | ⟨c, hd⟩ | ⟨c, hp, hd⟩ | ⟨hill, hd⟩ <;> rw [hd]
  case inr.inr.inr.inr.inr.inr.inr.inr.inr.inr.inr.inr.inr => rw [decode_illegal (hop ▸ hill)]
  all_goals
    have c' := hop ▸ c
    rw [c] at hba hbb hn ha hb hs
  · rw [decode_bAnd c', hba rfl, hbb rfl]
  · rw [decode_bOr c', hba rfl, hbb rfl]
  · rw [decode_bXor c', hba rfl, hbb rfl]
  · rw [decode_bNot c', hba rfl]
  · rw [decode_bShl c', byteAndCount_congr _ (hba rfl) (hn rfl)]
  · rw [decode_bShr c', byteAndCount_congr _ (hba rfl) (hn rfl)]
  · rw [decode_sAnd c', twoSequences_congr _ (ha rfl) (hb rfl)]
  · rw [decode_sOr c', twoSequences_congr _ (ha rfl) (hb rfl)]
  · rw [decode_sXor c', twoSequences_congr _ (ha rfl) (hb rfl)]
  · rw [decode_sNot c', oneSequence_congr _ (ha rfl)]
  · rw [decode_sShl c', sequenceAndCount_congr _ (ha rfl) (hn rfl)]
  · rw [decode_sShr c', sequenceAndCount_congr _ (ha rfl) (hn rfl)]
  · rw [decode_parse c', if_pos hp, oneString_congr _ (hs (by simp [readsS, hp]))]

end agreement

section inRange
variable {p : Params} {r : Ports} {i : Instr}

theorem inRange_iff : r.inRange p = true ↔
    (readsShamt r.op = true → r.shamt < 2 ^ p.nbits) ∧ (readsA r.op = true → r.a.InRange p.lmax) ∧
      (readsB r.op = true → r.b.InRange p.lmax) ∧ (readsS p r.op = true → r.s.InRange p.smax) := by
  simp only [Ports.inRange, Bool.and_eq_true, Bool.or_eq_true, Bool.not_eq_true', decide_eq_true_eq, and_assoc,
    ← Bool.not_eq_true, ← imp_iff_not_or]

/-- A command that reads port B reads port A (R54). -/
theorem readsA_of_readsB {op : Byte} (h : readsB op = true) : readsA op = true :=
  readsA_iff.mpr (.inl (readsB_iff.mp h))

/-- Every operand in range: the decoder finds a command, or the opcode has none. By row of R58, taken together by operand
form (R54). -/
theorem decode_of_inRange (h : r.inRange p = true) : (∃ i, decode p r = .ok i) ∨ decode p r = .error .illegalOp := by
  obtain ⟨hn, ha, hb, hs⟩ := inRange_iff.mp h
  rcases decode_cases p r with ⟨c, hd⟩ | ⟨c, hd⟩ | ⟨c, hd⟩ | ⟨c, hd⟩ | ⟨c, hd⟩ | ⟨c, hd⟩ | ⟨c, hd⟩ | ⟨c, hd⟩ |
    ⟨c, hd⟩ | ⟨c, hd⟩ | ⟨c, hd⟩ | ⟨c, hd⟩ | ⟨c, hp, hd⟩ | ⟨-, hd⟩
  case inr.inr.inr.inr.inr.inr.inr.inr.inr.inr.inr.inr.inr => exact .inr hd
  all_goals
    rw [c] at hn ha hb hs
    rw [hd]
    left
  iterate 4 exact ⟨_, rfl⟩
  iterate 2 exact ⟨_, byteAndCount_ok.mpr ⟨hn rfl, rfl⟩⟩
  iterate 3 exact ⟨_, twoSequences_ok.mpr ⟨ha rfl, hb rfl, rfl⟩⟩
  · exact ⟨_, oneSequence_ok.mpr ⟨ha rfl, rfl⟩⟩
  iterate 2 exact ⟨_, sequenceAndCount_ok.mpr ⟨ha rfl, hn rfl, rfl⟩⟩
  · exact ⟨_, oneString_ok.mpr ⟨hs (by simp [readsS, hp]), rfl⟩⟩

/-- An operand out of range, looked for in the order of R116 step 2: the decoder names a port or the count. -/
theorem decode_of_not_inRange (h : ¬ r.inRange p = true) :
    (∃ port, decode p r = .error (.lengthOutOfRange port)) ∨ decode p r = .error .countOutOfRange := by
  by_cases ha : readsA r.op = true → r.a.InRange p.lmax
  case neg =>
    obtain ⟨hr, hout⟩ := Classical.not_imp.mp ha
    exact .inl ⟨.a, decode_of_a_not_inRange hr hout⟩
  by_cases hb : readsB r.op = true → r.b.InRange p.lmax
  case neg =>
    obtain ⟨hr, hout⟩ := Classical.not_imp.mp hb
    exact .inl ⟨.b, decode_of_b_not_inRange hr (ha (readsA_of_readsB hr)) hout⟩
  by_cases hs : readsS p r.op = true → r.s.InRange p.smax
  case neg =>
    obtain ⟨hr, hout⟩ := Classical.not_imp.mp hs
    exact .inl ⟨.s, decode_of_s_not_inRange hr hout⟩
  by_cases hn : readsShamt r.op = true → r.shamt < 2 ^ p.nbits
  case neg =>
    obtain ⟨hr, hwide⟩ := Classical.not_imp.mp hn
    exact .inr (decode_of_count_wide hr ha (not_lt.mp hwide))
  exact absurd (inRange_iff.mpr ⟨hn, ha, hb, hs⟩) h

/-- What the decoder answers has the opcode that stands on `OP` (R58). By row, taken together by operand form. -/
theorem decode_opcode (h : decode p r = .ok i) : i.opcode = r.op := by
  rcases decode_cases p r with ⟨c, hd⟩ | ⟨c, hd⟩ | ⟨c, hd⟩ | ⟨c, hd⟩ | ⟨c, hd⟩ | ⟨c, hd⟩ | ⟨c, hd⟩ | ⟨c, hd⟩ |
    ⟨c, hd⟩ | ⟨c, hd⟩ | ⟨c, hd⟩ | ⟨c, hd⟩ | ⟨c, -, hd⟩ | ⟨-, hd⟩ <;> rw [hd] at h
  case inr.inr.inr.inr.inr.inr.inr.inr.inr.inr.inr.inr.inr => cases h
  all_goals rw [c]
  iterate 4 (cases h; rfl)
  iterate 2 (obtain ⟨-, rfl⟩ := byteAndCount_ok.mp h; rfl)
  iterate 3 (obtain ⟨-, -, rfl⟩ := twoSequences_ok.mp h; rfl)
  · obtain ⟨-, rfl⟩ := oneSequence_ok.mp h; rfl
  iterate 2 (obtain ⟨-, -, rfl⟩ := sequenceAndCount_ok.mp h; rfl)
  · obtain ⟨-, rfl⟩ := oneString_ok.mp h; rfl

end inRange

end Sys2Proof
end

section
/-! PROOFS. What a command answers rests on the command, the parameters and the counter of free draws, and on nothing
else of the state. -/

namespace Sys2Proof.Machine

/-- An instruction that makes no free draw in a block with parameters `p` (R106). -/
abbrev DrawFree (p : Params) (i : Instr) : Prop :=
  (∀ str, i ≠ .parse str) ∨ p.hasParser = false ∨ p.parseValidationMayFail = false

/-- The state after a response: the latch written, and `n` free draws taken. -/
def answered (l : Latch) (n : Nat) (s : State) : State := { s with latch := l, draws := s.draws + n }

theorem respond_eq_answered (c : StatusCode) (r : Option ByteSeq) (s : State) : respond c r s = answered ⟨c, r⟩ 0 s :=
  rfl

theorem respond_takeDraw_eq_answered (c : StatusCode) (r : Option ByteSeq) (s : State) :
    respond c r (takeDraw s) = answered ⟨c, r⟩ 1 s := rfl

/-- Two outcomes that are the same response on two states, or one refusal. -/
def AnswersAlike (o o' : Result) (s t : State) : Prop :=
  (∃ l n, o = .next (answered l n s) ∧ o' = .next (answered l n t)) ∨ ∃ e, o = .refused e ∧ o' = .refused e

section parser
variable {str : ByteSeq} {s : State}

theorem execParse_of_noParser (hp : s.params.hasParser = false) : execParse str s = fail statusIllegalOp s := by
  rw [execParse, if_pos hp]

theorem execParse_of_steady (hp : s.params.hasParser = true) (hf : s.params.parseValidationMayFail = false) :
    execParse str s = parseString str s := by
  rw [execParse, if_neg (by simp [hp]), if_pos hf]

theorem execParse_of_mayFail (hp : s.params.hasParser = true) (hf : s.params.parseValidationMayFail = true) :
    execParse str s = if Config.validationDraw s.draws then fail statusValidationFailure (takeDraw s)
      else parseString str (takeDraw s) := by
  rw [execParse, if_neg (by simp [hp]), if_neg (by simp [hf])]

end parser

/-- The lengths alone decide between the two responses (R76), so the response is one for all states. -/
theorem execLaneWise_response (f : Byte → Byte → Byte) (x y : ByteSeq) :
    ∃ c r, ∀ s, execLaneWise f x y s = .next (respond c r s) := by
  by_cases h : x.length = y.length
  · exact ⟨_, _, fun s => if_pos h⟩
  · exact ⟨_, _, fun s => if_neg h⟩

/-- The string alone decides (R99). -/
theorem parseString_response (str : ByteSeq) : ∃ c r, ∀ s, parseString str s = .next (respond c r s) := by
  by_cases h : digitsOnly (strip str) = true
  · exact ⟨_, _, fun s => if_pos h⟩
  · exact ⟨_, _, fun s => if_neg h⟩

/-- An instruction other than `PARSE` has one response for all states and all parameters. -/
theorem exec_response {i : Instr} (h : ∀ str, i ≠ .parse str) : ∃ c r, ∀ s, exec i s = .next (respond c r s) := by
  cases i with
  | parse str => exact absurd rfl (h str)
  | sAnd x y | sOr x y | sXor x y => exact execLaneWise_response _ x y
  | _ => exact ⟨_, _, fun _ => rfl⟩

section alike
variable {s t : State}

theorem answersAlike_of_response {o : State → Result} (h : ∃ c r, ∀ s, o s = .next (respond c r s)) :
    AnswersAlike (o s) (o t) s t := by
  obtain ⟨c, r, ho⟩ := h
  refine .inl ⟨⟨c, r⟩, 0, ?_, ?_⟩ <;> rw [ho, respond_eq_answered]

theorem answersAlike_of_drawn_response {o : State → Result} (h : ∃ c r, ∀ s, o s = .next (respond c r s)) :
    AnswersAlike (o (takeDraw s)) (o (takeDraw t)) s t := by
  obtain ⟨c, r, ho⟩ := h
  refine .inl ⟨⟨c, r⟩, 1, ?_, ?_⟩ <;> rw [ho, respond_takeDraw_eq_answered]

/-- `PARSE` answers alike where its free draw, if it makes one, is the same draw (R106). -/
theorem execParse_alike (str : ByteSeq) (hp : s.params = t.params)
    (hd : s.draws = t.draws ∨ s.params.hasParser = false ∨ s.params.parseValidationMayFail = false) :
    AnswersAlike (execParse str s) (execParse str t) s t := by
  by_cases hparser : s.params.hasParser = true
  case neg =>
    have hno := Bool.eq_false_iff.mpr hparser
    rw [execParse_of_noParser hno, execParse_of_noParser (hp ▸ hno)]
    exact answersAlike_of_response ⟨_, _, fun _ => rfl⟩
  by_cases hmay : s.params.parseValidationMayFail = true
  case neg =>
    have hsteady := Bool.eq_false_iff.mpr hmay
    rw [execParse_of_steady hparser hsteady, execParse_of_steady (hp ▸ hparser) (hp ▸ hsteady)]
    exact answersAlike_of_response (parseString_response str)
  have hdraw : s.draws = t.draws := by simpa [hparser, hmay] using hd
  rw [execParse_of_mayFail hparser hmay, execParse_of_mayFail (hp ▸ hparser) (hp ▸ hmay), ← hdraw]
  split
  · exact answersAlike_of_drawn_response (o := fail statusValidationFailure) ⟨_, _, fun _ => rfl⟩
  · exact answersAlike_of_drawn_response (parseString_response str)

theorem exec_alike (i : Instr) (hp : s.params = t.params) (hd : s.draws = t.draws ∨ DrawFree s.params i) :
    AnswersAlike (exec i s) (exec i t) s t := by
  by_cases h : ∀ str, i ≠ .parse str
  · exact answersAlike_of_response (exec_response h)
  · obtain ⟨str, rfl⟩ := not_forall_not.mp h
    exact execParse_alike str hp (hd.imp_right fun hfree => hfree.resolve_left h)

theorem rejectRequest_alike (e : Reject) : AnswersAlike (rejectRequest e s) (rejectRequest e t) s t := by
  cases e with
  | illegalOp => exact answersAlike_of_response ⟨_, _, fun _ => rfl⟩
  | lengthOutOfRange q => exact .inr ⟨_, rfl, rfl⟩
  | countOutOfRange => exact .inr ⟨_, rfl, rfl⟩

end alike

/-- A presented command that the decoder reads runs as that instruction (R18, R116). -/
theorem step_of_decode_ok {s : State} {rest : List HostAction} {i : Instr} (hh : s.host = .present :: rest)
    (hd : decode s.params s.ports = .ok i) : step s = exec i (takeAction rest s) := by
  rw [step_present hh]
  simp only [performCommand, fetch, takeAction_params, takeAction_ports, hd]

/-- Two states whose ports decode alike, in one block, are answered alike (R17), but for the free draw of R106. -/
theorem step_present_alike {s t : State} {rest rest' : List HostAction} (hs : s.host = .present :: rest)
    (ht : t.host = .present :: rest') (hp : s.params = t.params)
    (hdec : decode t.params t.ports = decode s.params s.ports)
    (hd : s.draws = t.draws ∨ ∀ i, decode s.params s.ports = .ok i → DrawFree s.params i) :
    AnswersAlike (step s) (step t) (takeAction rest s) (takeAction rest' t) := by
  cases h : decode s.params s.ports with
  | ok i =>
    rw [step_of_decode_ok hs h, step_of_decode_ok ht (hdec.trans h)]
    exact exec_alike i hp (hd.imp_right fun hfree => hfree i h)
  | error e =>
    rw [step_of_decode_error hs h, step_of_decode_error ht (hdec.trans h)]
    exact rejectRequest_alike e

/-- Every instruction answers, in every state. -/
theorem exec_next (i : Instr) (s : State) : ∃ t, exec i s = .next t := by
  obtain ⟨c, r, s', h, -⟩ := exec_responds i s
  exact ⟨_, h⟩

/-- A presented command has a meaning exactly where its operands are in range. -/
theorem stepsOn_present_iff {s : State} {rest : List HostAction} (hh : s.host = .present :: rest) :
    s.StepsOn ↔ s.ports.inRange s.params = true := by
  constructor
  · rintro ⟨t, ht⟩
    by_contra hout
    rcases decode_of_not_inRange hout with ⟨port, hd⟩ | hd
    · simp [step_of_decode_error hh hd, rejectRequest] at ht
    · simp [step_of_decode_error hh hd, rejectRequest] at ht
  · intro hin
    rcases decode_of_inRange hin with ⟨i, hd⟩ | hd
    · rw [State.StepsOn, step_of_decode_ok hh hd]
      exact exec_next i _
    · exact ⟨_, step_of_decode_error hh hd⟩

section hostActions
variable {s : State} {rest : List HostAction}

theorem step_idle (h : s.host = []) : step s = .next s := by simp only [step, h]

theorem step_drive {r : Ports} (h : s.host = .drive r :: rest) :
    step s = .next (hostDrive r (takeAction rest s)) := by simp only [step, h]

theorem step_read {f : LatchField} (h : s.host = .read f :: rest) :
    step s = hostRead f (takeAction rest s) := by simp only [step, h]

theorem step_reset (h : s.host = .reset :: rest) : step s = .next (hostReset (takeAction rest s)) := by
  simp only [step, h]

theorem hostRead_of_some {f : LatchField} {v : Nat} (h : s.latch.read f = some v) :
    hostRead f s = .next { s with readout := some v } := by simp only [hostRead, h]

theorem hostRead_of_none {f : LatchField} (h : s.latch.read f = none) : hostRead f s = .refused (.noValue f) := by
  simp only [hostRead, h]

theorem step_read_of_some {f : LatchField} {v : Nat} (h : s.host = .read f :: rest) (hv : s.latch.read f = some v) :
    step s = .next { takeAction rest s with readout := some v } :=
  (step_read h).trans (hostRead_of_some hv)

theorem step_read_of_none {f : LatchField} (h : s.host = .read f :: rest) (hv : s.latch.read f = none) :
    step s = .refused (.noValue f) :=
  (step_read h).trans (hostRead_of_none hv)

/-- A read has a meaning exactly where the part read holds a value (log entry 8). -/
theorem stepsOn_read_iff {f : LatchField} (h : s.host = .read f :: rest) :
    s.StepsOn ↔ (s.latch.read f).isSome = true := by
  cases hv : s.latch.read f with
  | none => simp [State.StepsOn, step_read_of_none h hv]
  | some v => simp [State.StepsOn, step_read_of_some h hv]

end hostActions

section latchReads
variable {c : StatusCode} {r : ByteSeq} {i : Nat}

theorem read_rlen_none : (Latch.mk c none).read .rlen = none := rfl

theorem read_lane_none : (Latch.mk c none).read (.lane i) = none := rfl

theorem read_lane_of_lt (h : i < r.length) :
    (Latch.mk c (some r)).read (.lane i) = some (laneOr0 r i).toNat := by
  simp [Latch.read, Latch.lane, laneOr0, h]

theorem read_lane_of_ge (h : r.length ≤ i) : (Latch.mk c (some r)).read (.lane i) = none := by
  simp [Latch.read, Latch.lane, h]

end latchReads

end Sys2Proof.Machine
end

section
/-! PROOFS. The statements about the step and the response. -/

namespace Sys2Proof.Claims
open Sys2Proof.Machine

/-- Settles O5: both requests decode to one command, and no command reads the ports again. -/
theorem unreadPortsAreIgnored : Obligations.UnreadPortsAreIgnored := by
  intro s r rest hpres hsame
  have halike := step_present_alike (t := { s with ports := r }) hpres hpres rfl (decode_congr hsame).symm (.inl rfl)
  rcases halike with ⟨l, n, hs, hr⟩ | ⟨e, hs, hr⟩ <;> rw [hs, hr]
  · refine ⟨fun t ht => ?_, fun e he => by cases he⟩
    cases ht
    rfl
  · refine ⟨fun t ht => (by cases ht), fun e' he => ?_⟩
    cases he
    rfl

/-- Settles O10, by the host's next action: only a presented command and a read can be refused. -/
theorem dutifulHostsAlwaysStep : Obligations.DutifulHostsAlwaysStep := by
  intro s
  unfold State.dutiful
  split
  · next h => exact iff_of_true rfl ⟨_, step_idle h⟩
  · next h => exact iff_of_true rfl ⟨_, step_drive h⟩
  · next h => exact (stepsOn_present_iff h).symm
  · next h => exact (stepsOn_read_iff h).symm
  · next h => exact iff_of_true rfl ⟨_, step_reset h⟩

/-- An opcode that makes no free draw decodes to an instruction that makes none. -/
theorem drawFree_of_noDraw {p : Params} {r : Ports} {i : Instr} (h : NoDraw p r.op) (hd : decode p r = .ok i) :
    DrawFree p i := by
  refine h.imp_left fun hop str hparse => hop ?_
  rw [← decode_opcode hd, hparse, opcode_parse]

/-- Settles O12: the ports decode alike, and an instruction answers alike but for its free draw. -/
theorem responseDependsOnTheRequestAlone : Obligations.ResponseDependsOnTheRequestAlone := by
  intro s t rest rest' hs ht hsame hdraw
  obtain ⟨hparams, hports⟩ := hsame
  have halike := step_present_alike hs ht hparams (by rw [hparams, hports])
    (hdraw.imp_right fun hno i => drawFree_of_noDraw hno)
  exact halike.imp_left fun ⟨_, _, hs', ht'⟩ => ⟨_, _, hs', ht', rfl⟩

/-- Settles O14: an instruction ends in one `respond`, and only a `PARSE` that may fail takes a draw before it. -/
theorem instructionsChangeOnlyTheLatch : Obligations.InstructionsChangeOnlyTheLatch := by
  intro i s t h
  obtain ⟨c, r, s', hexec, hs'⟩ := exec_responds i s
  cases hexec.symm.trans h
  rcases hs' with rfl | ⟨⟨str, hparse⟩, hp, hf, rfl⟩
  · exact ⟨rfl, rfl, rfl, rfl, fun _ => rfl⟩
  · refine ⟨rfl, rfl, rfl, rfl, fun hfree => ?_⟩
    simp [hparse, hp, hf] at hfree

/-- Settles O6: the decoder finds the length, and the step refuses it by the port's name. -/
theorem lengthAboveBoundIsRefused : Obligations.LengthAboveBoundIsRefused := by
  intro s rest hpres
  refine ⟨fun hr hl => ?_, fun hr ha ha' hl => ?_, fun hr hl => ?_⟩
  · exact step_of_decode_error hpres (decode_of_a_not_inRange hr fun hin => hl.not_ge hin.1)
  · exact step_of_decode_error hpres (decode_of_b_not_inRange hr ⟨ha, ha'⟩ fun hin => hl.not_ge hin.1)
  · exact step_of_decode_error hpres (decode_of_s_not_inRange hr fun hin => hl.not_ge hin.1)

/-- Settles O8: each operand form checks the bounds of what it reads, and `exec` stands alone after the decoder. -/
theorem stepRunsTheDecodedInstruction : Obligations.StepRunsTheDecodedInstruction :=
  fun _ _ _ hpres hd => ⟨decode_wellFormed hd, step_of_decode_ok hpres hd⟩

/-- Settles O9, by the two rules of the step for these actions. -/
theorem blockActsOnlyOnCommands : Obligations.BlockActsOnlyOnCommands :=
  ⟨fun _ h => step_idle h, fun _ _ _ h => step_drive h⟩

/-- Settles O15: both reset states have `Latch.idle`. -/
theorem resetLatchIsIdle : Obligations.ResetLatchIsIdle :=
  ⟨fun _ => ⟨rfl, rfl, rfl, fun _ => rfl⟩, rfl, rfl⟩

/-- Settles O19: of the five things a step can do, three leave the latch as it is. -/
theorem latchHoldsAndReadsAreFree : Obligations.LatchHoldsAndReadsAreFree := by
  refine ⟨fun s t hstep hne => ?_, fun s f rest v h hv => step_read_of_some h hv⟩
  rcases step_next hstep with ⟨-, rfl⟩ | ⟨r, rest, -, rfl⟩ | ⟨rest, h, -⟩ | ⟨f, rest, v, -, -, rfl⟩ | ⟨rest, h, -⟩
  case inl => exact absurd rfl hne
  case inr.inl => exact absurd rfl hne
  case inr.inr.inl => exact ⟨rest, .inl h⟩
  case inr.inr.inr.inl => exact absurd rfl hne
  case inr.inr.inr.inr => exact ⟨rest, .inr h⟩

/-- Settles O20: what `Latch.read` gives, part by part, and that a step refuses a read of no value. -/
theorem readsSeeTheResponse : Obligations.ReadsSeeTheResponse := by
  refine ⟨fun s r => ⟨rfl, rfl, rfl, fun i hi => read_lane_of_lt hi⟩, fun s c => ⟨rfl, rfl⟩, ?_, ?_⟩
  · intro s rest hnone
    have hlatch : s.latch = ⟨s.latch.status, none⟩ := by rw [← hnone]
    refine ⟨fun h => step_read_of_none h ?_, fun i h => step_read_of_none h ?_⟩
    · rw [hlatch, read_rlen_none]
    · rw [hlatch, read_lane_none]
  · intro s rest r i hsome hi h
    have hlatch : s.latch = ⟨s.latch.status, some r⟩ := by rw [← hsome]
    exact step_read_of_none h (hlatch ▸ read_lane_of_ge hi)

/-- Settles O22: the latch of power-on is `Latch.idle`, legal in every block. -/
theorem resetLatchIsLegal : Obligations.ResetLatchIsLegal :=
  ⟨⟨by decide, legal_idle⟩, fun _ hv => ⟨hv, legal_idle⟩⟩

end Sys2Proof.Claims
end

section
/-! PROOFS. A command that makes no free draw writes the latch and nothing else, so presented again it finds the same
request. -/

namespace Sys2Proof.Machine

/-- An instruction that makes no free draw ends in one `respond` on the state it was given. -/
theorem exec_next_of_drawFree {i : Instr} {s t : State} (hfree : DrawFree s.params i) (h : exec i s = .next t) :
    ∃ c r, t = respond c r s := by
  obtain ⟨c, r, s', hexec, hs'⟩ := exec_responds i s
  cases hexec.symm.trans h
  rcases hs' with rfl | ⟨⟨str, hparse⟩, hp, hf, -⟩
  · exact ⟨c, r, rfl⟩
  · simp [DrawFree, hparse, hp, hf] at hfree

/-- A presented command that makes no free draw writes the latch alone (R23, R42). -/
theorem step_present_next {s t : State} {rest : List HostAction} (hh : s.host = .present :: rest)
    (hfree : ∀ i, decode s.params s.ports = .ok i → DrawFree s.params i) (h : step s = .next t) :
    ∃ c r, t = respond c r (takeAction rest s) := by
  rw [step_present hh] at h
  rcases performCommand_next h with ⟨i, hd, hexec⟩ | ⟨-, rfl⟩
  · exact exec_next_of_drawFree (hfree i hd) hexec
  · exact ⟨_, _, rfl⟩

/-- A response to a state tells its latch and that no draw was taken. -/
theorem respond_eq_answered_iff {c : StatusCode} {r : Option ByteSeq} {l : Latch} {n : Nat} {s : State} :
    respond c r s = answered l n s ↔ ⟨c, r⟩ = l ∧ n = 0 := by
  simp [respond, answered]

end Sys2Proof.Machine
end

section
/-! PROOFS. The sequence operator on one lane. -/

namespace Sys2Proof.Machine

/-- On one lane the lengths agree, and the only lane of the result is the byte result (R75, R76). -/
theorem execLaneWise_singleton (f : Byte → Byte → Byte) (a b : Byte) (s : State) :
    execLaneWise f [a] [b] s = respondByte (f a b) s := if_pos rfl

theorem seqNot_singleton (a : Byte) : seqNot [a] = [byteNot a] := rfl

/-- Into the last lane nothing is carried, and what is carried out of the first is discarded (R87). -/
theorem seqShl_singleton (a : Byte) (n : Nat) : seqShl [a] n = [byteShl a n] := by
  simp only [seqShl, shlPass_cons, shlPass_nil, Nat.zero_add, byteShl]

/-- The pass starts from remainder 0, and the last remainder is discarded (R92). -/
theorem seqShr_singleton (a : Byte) (n : Nat) : seqShr [a] n = [byteShr a n] := by
  simp only [seqShr, shrPass_cons, shrPass_nil, Nat.zero_mul, Nat.zero_add, byteShr]

end Sys2Proof.Machine
end

section
/-! PROOFS. The statements about repeated requests and about one-lane sequences. -/

namespace Sys2Proof.Claims
open Sys2Proof.Machine

/-- Settles O13: the first command leaves the block, the ports and the draws as they were, so the second is answered
alike. -/
theorem sameRequestTwiceSameResponse : Obligations.SameRequestTwiceSameResponse := by
  intro s t rest hhost hno hstep
  obtain ⟨c, r, rfl⟩ := step_present_next hhost (fun i => drawFree_of_noDraw hno) hstep
  have halike := step_present_alike (t := respond c r (takeAction (.present :: rest) s)) hhost rfl rfl rfl (.inl rfl)
  rcases halike with ⟨l, n, hfirst, hsecond⟩ | ⟨e, hfirst, -⟩
  · have hsame := Host.Outcome.next.inj (hstep.symm.trans hfirst)
    obtain ⟨rfl, rfl⟩ := respond_eq_answered_iff.mp hsame
    exact hsecond
  · cases hstep.symm.trans hfirst

/-- Settles O38: a byte result is a one-lane sequence (R65), and each sequence result on one lane is that sequence. -/
theorem oneLaneSequencesAgreeWithBytes : Obligations.OneLaneSequencesAgreeWithBytes := by
  intro s a b n
  exact ⟨execLaneWise_singleton _ a b s, execLaneWise_singleton _ a b s, execLaneWise_singleton _ a b s,
    congrArg (complete · s) (seqNot_singleton a), congrArg (complete · s) (seqShl_singleton a n),
    congrArg (complete · s) (seqShr_singleton a n)⟩

end Sys2Proof.Claims
end

section
/-! PROOFS. The encoder drives what the decoder reads, and the decoder reads what the encoder drives: one lemma per operand
form (R54), in each direction. -/

namespace Sys2Proof

section encodedForms
variable {p : Params} {r : Ports}

/-- A port loaded with a sequence within its bound carries what its length field says. -/
theorem load_inRange {bound : Nat} (q : SeqPort) {x : ByteSeq} (h : x.length ≤ bound) : (q.load x).InRange bound :=
  ⟨h, load_lanes_length q x⟩

theorem seqFits_iff {x : ByteSeq} : seqFits p x = true ↔ x.length ≤ p.lmax := decide_eq_true_iff

theorem countFits_iff {n : Nat} : countFits p n = true ↔ n < 2 ^ p.nbits := decide_eq_true_iff

theorem stringFits_iff {x : ByteSeq} : stringFits p x = true ↔ x.length ≤ p.smax := decide_eq_true_iff

theorem byteAndCount_of_driven (mk : Byte → Nat → Instr) {a : Byte} {n : Nat} (hba : r.ba = a) (hshamt : r.shamt = n)
    (hn : countFits p n = true) : byteAndCount p r mk = .ok (mk a n) := by
  subst hba hshamt
  exact byteAndCount_ok.mpr ⟨countFits_iff.mp hn, rfl⟩

theorem twoSequences_of_driven (mk : ByteSeq → ByteSeq → Instr) {q q' : SeqPort} {x y : ByteSeq} (ha : r.a = q.load x)
    (hb : r.b = q'.load y) (hfits : (seqFits p x && seqFits p y) = true) : twoSequences p r mk = .ok (mk x y) := by
  obtain ⟨hx, hy⟩ := Bool.and_eq_true_iff.mp hfits
  refine twoSequences_ok.mpr ⟨?_, ?_, ?_⟩
  · exact ha ▸ load_inRange q (seqFits_iff.mp hx)
  · exact hb ▸ load_inRange q' (seqFits_iff.mp hy)
  · rw [ha, hb, load_len, load_take, load_len, load_take]

theorem oneSequence_of_driven (mk : ByteSeq → Instr) {q : SeqPort} {x : ByteSeq} (ha : r.a = q.load x)
    (hx : seqFits p x = true) : oneSequence p r mk = .ok (mk x) := by
  refine oneSequence_ok.mpr ⟨ha ▸ load_inRange q (seqFits_iff.mp hx), ?_⟩
  rw [ha, load_len, load_take]

theorem sequenceAndCount_of_driven (mk : ByteSeq → Nat → Instr) {q : SeqPort} {x : ByteSeq} {n : Nat}
    (ha : r.a = q.load x) (hshamt : r.shamt = n) (hfits : (seqFits p x && countFits p n) = true) :
    sequenceAndCount p r mk = .ok (mk x n) := by
  obtain ⟨hx, hn⟩ := Bool.and_eq_true_iff.mp hfits
  refine sequenceAndCount_ok.mpr ⟨ha ▸ load_inRange q (seqFits_iff.mp hx), hshamt ▸ countFits_iff.mp hn, ?_⟩
  rw [ha, hshamt, load_len, load_take]

theorem oneString_of_driven (mk : ByteSeq → Instr) {q : SeqPort} {x : ByteSeq} (hs : r.s = q.load x)
    (hx : stringFits p x = true) : oneString p r mk = .ok (mk x) := by
  refine oneString_ok.mpr ⟨hs ▸ load_inRange q (stringFits_iff.mp hx), ?_⟩
  rw [hs, load_len, load_take]

/-- A command that fits the block is decoded from the ports it is driven onto (R51, R54, R58, R62). -/
theorem decode_encodeOnto (p : Params) (r : Ports) {i : Instr} (h : i.wellFormed p = true) :
    decode p (encodeOnto r i) = .ok i := by
  have hop := encodeOnto_op r i
  cases i with
  | bAnd a b => exact decode_bAnd hop
  | bOr a b => exact decode_bOr hop
  | bXor a b => exact decode_bXor hop
  | bNot a => exact decode_bNot hop
  | bShl a n => exact (decode_bShl hop).trans (byteAndCount_of_driven _ rfl rfl h)
  | bShr a n => exact (decode_bShr hop).trans (byteAndCount_of_driven _ rfl rfl h)
  | sAnd x y => exact (decode_sAnd hop).trans (twoSequences_of_driven _ rfl rfl h)
  | sOr x y => exact (decode_sOr hop).trans (twoSequences_of_driven _ rfl rfl h)
  | sXor x y => exact (decode_sXor hop).trans (twoSequences_of_driven _ rfl rfl h)
  | sNot x => exact (decode_sNot hop).trans (oneSequence_of_driven _ rfl h)
  | sShl x n => exact (decode_sShl hop).trans (sequenceAndCount_of_driven _ rfl rfl h)
  | sShr x n => exact (decode_sShr hop).trans (sequenceAndCount_of_driven _ rfl rfl h)
  | parse str =>
    obtain ⟨hp, hstr⟩ := Bool.and_eq_true_iff.mp h
    rw [decode_parse hop, if_pos hp]
    exact oneString_of_driven _ rfl hstr

end encodedForms

section decodedForms
variable {p : Params} {r : Ports} {i : Instr}

theorem encodeOnto_of_byteAndCount {mk : Byte → Nat → Instr} (hop : i.opcode = r.op)
    (hmk : ∀ a n, encodeOnto r (mk a n) = { r with op := (mk a n).opcode, ba := a, shamt := n })
    (h : byteAndCount p r mk = .ok i) : encodeOnto r i = r := by
  obtain ⟨-, rfl⟩ := byteAndCount_ok.mp h
  rw [hmk, hop]

theorem encodeOnto_of_twoSequences {mk : ByteSeq → ByteSeq → Instr} (hop : i.opcode = r.op)
    (hmk : ∀ x y, encodeOnto r (mk x y) = { r with op := (mk x y).opcode, a := r.a.load x, b := r.b.load y })
    (h : twoSequences p r mk = .ok i) : encodeOnto r i = r := by
  obtain ⟨⟨-, ha⟩, ⟨-, hb⟩, rfl⟩ := twoSequences_ok.mp h
  rw [hmk, hop, load_self ha, load_self hb]

theorem encodeOnto_of_oneSequence {mk : ByteSeq → Instr} (hop : i.opcode = r.op)
    (hmk : ∀ x, encodeOnto r (mk x) = { r with op := (mk x).opcode, a := r.a.load x })
    (h : oneSequence p r mk = .ok i) : encodeOnto r i = r := by
  obtain ⟨⟨-, ha⟩, rfl⟩ := oneSequence_ok.mp h
  rw [hmk, hop, load_self ha]

theorem encodeOnto_of_sequenceAndCount {mk : ByteSeq → Nat → Instr} (hop : i.opcode = r.op)
    (hmk : ∀ x n, encodeOnto r (mk x n) = { r with op := (mk x n).opcode, a := r.a.load x, shamt := n })
    (h : sequenceAndCount p r mk = .ok i) : encodeOnto r i = r := by
  obtain ⟨⟨-, ha⟩, -, rfl⟩ := sequenceAndCount_ok.mp h
  rw [hmk, hop, load_self ha]

theorem encodeOnto_of_oneString {mk : ByteSeq → Instr} (hop : i.opcode = r.op)
    (hmk : ∀ x, encodeOnto r (mk x) = { r with op := (mk x).opcode, s := r.s.load x })
    (h : oneString p r mk = .ok i) : encodeOnto r i = r := by
  obtain ⟨⟨-, hs⟩, rfl⟩ := oneString_ok.mp h
  rw [hmk, hop, load_self hs]

/-- What the decoder answers puts back the ports it was read from (R51, R54, R58): by row, with the opcode from
`decode_opcode` and the operands from the row's form. -/
theorem encodeOnto_of_decode (h : decode p r = .ok i) : encodeOnto r i = r := by
  have hop := decode_opcode h
  rcases decode_cases p r with ⟨c, hd⟩ | ⟨c, hd⟩ | ⟨c, hd⟩ | ⟨c, hd⟩ | ⟨-, hd⟩ | ⟨-, hd⟩ | ⟨-, hd⟩ | ⟨-, hd⟩ |
    ⟨-, hd⟩ | ⟨-, hd⟩ | ⟨-, hd⟩ | ⟨-, hd⟩ | ⟨-, -, hd⟩ | ⟨-, hd⟩ <;> rw [hd] at h
  iterate 4
    cases h
    simp only [encodeOnto, hop]
  iterate 2 exact encodeOnto_of_byteAndCount hop (fun _ _ => rfl) h
  iterate 3 exact encodeOnto_of_twoSequences hop (fun _ _ => rfl) h
  · exact encodeOnto_of_oneSequence hop (fun _ => rfl) h
  iterate 2 exact encodeOnto_of_sequenceAndCount hop (fun _ _ => rfl) h
  · exact encodeOnto_of_oneString hop (fun _ => rfl) h
  · cases h

end decodedForms

end Sys2Proof

namespace Sys2Proof.Claims
open Sys2Proof.Machine

/-- Settles O2: the opcode picks the row of R58, and the row's operand form reads back what was driven. -/
theorem decodeOfEncode : Obligations.DecodeOfEncode := fun p r _ h => decode_encodeOnto p r h

/-- Settles O3: each operand form checks the bounds of what it reads, and keeps all of it. -/
theorem encodeOfDecode : Obligations.EncodeOfDecode := fun _ _ _ h => ⟨decode_wellFormed h, encodeOnto_of_decode h⟩

end Sys2Proof.Claims
end

section
/-! PROOFS. Illegal opcodes (R59, R61), and the words of the opcode table. -/

namespace Sys2Proof

section illegal
variable {p : Params} {r : Ports}

theorem byteAndCount_ne_illegalOp (mk : Byte → Nat → Instr) : byteAndCount p r mk ≠ .error .illegalOp := by
  by_cases hn : r.shamt < 2 ^ p.nbits
  · simp [byteAndCount_ok.mpr ⟨hn, rfl⟩]
  · simp [byteAndCount_of_wide mk (not_lt.mp hn)]

theorem twoSequences_ne_illegalOp (mk : ByteSeq → ByteSeq → Instr) : twoSequences p r mk ≠ .error .illegalOp := by
  by_cases ha : r.a.InRange p.lmax
  · by_cases hb : r.b.InRange p.lmax
    · simp [twoSequences_ok.mpr ⟨ha, hb, rfl⟩]
    · simp [twoSequences_of_b_not_inRange mk ha hb]
  · simp [twoSequences_of_a_not_inRange mk ha]

theorem oneSequence_ne_illegalOp (mk : ByteSeq → Instr) : oneSequence p r mk ≠ .error .illegalOp := by
  by_cases ha : r.a.InRange p.lmax
  · simp [oneSequence_ok.mpr ⟨ha, rfl⟩]
  · simp [oneSequence_of_a_not_inRange mk ha]

theorem sequenceAndCount_ne_illegalOp (mk : ByteSeq → Nat → Instr) :
    sequenceAndCount p r mk ≠ .error .illegalOp := by
  by_cases ha : r.a.InRange p.lmax
  · by_cases hn : r.shamt < 2 ^ p.nbits
    · simp [sequenceAndCount_ok.mpr ⟨ha, hn, rfl⟩]
    · simp [sequenceAndCount_of_wide mk ha (not_lt.mp hn)]
  · simp [sequenceAndCount_of_a_not_inRange mk ha]

theorem oneString_ne_illegalOp (mk : ByteSeq → Instr) : oneString p r mk ≠ .error .illegalOp := by
  by_cases hs : r.s.InRange p.smax
  · simp [oneString_ok.mpr ⟨hs, rfl⟩]
  · simp [oneString_of_s_not_inRange mk hs]

/-- The decoder calls an opcode illegal exactly where it is not legal: no operand form answers so. -/
theorem decode_illegal_iff : decode p r = .error .illegalOp ↔ legalOp p r.op = false := by
  refine ⟨fun h => ?_, decode_illegal⟩
  rcases decode_cases p r with ⟨-, hd⟩ | ⟨-, hd⟩ | ⟨-, hd⟩ | ⟨-, hd⟩ | ⟨-, hd⟩ | ⟨-, hd⟩ | ⟨-, hd⟩ | ⟨-, hd⟩ |
    ⟨-, hd⟩ | ⟨-, hd⟩ | ⟨-, hd⟩ | ⟨-, hd⟩ | ⟨-, -, hd⟩ | ⟨hill, -⟩
  case inr.inr.inr.inr.inr.inr.inr.inr.inr.inr.inr.inr.inr => exact hill
  all_goals rw [hd] at h
  iterate 4 cases h
  iterate 2 exact absurd h (byteAndCount_ne_illegalOp _)
  iterate 3 exact absurd h (twoSequences_ne_illegalOp _)
  · exact absurd h (oneSequence_ne_illegalOp _)
  iterate 2 exact absurd h (sequenceAndCount_ne_illegalOp _)
  · exact absurd h (oneString_ne_illegalOp _)

end illegal

section zeroPorts
variable (p : Params) (op : Byte)

@[simp] theorem opcodePorts_op : (opcodePorts p op).op = op := rfl
@[simp] theorem opcodePorts_ba : (opcodePorts p op).ba = 0 := rfl
@[simp] theorem opcodePorts_bb : (opcodePorts p op).bb = 0 := rfl

/-- A zero port of `n` lanes is in range, whatever `n` is. -/
theorem zero_inRange (bound n : Nat) : (SeqPort.zero n).InRange bound := ⟨Nat.zero_le _, Nat.zero_le _⟩

theorem byteAndCount_opcodePorts (mk : Byte → Nat → Instr) : byteAndCount p (opcodePorts p op) mk = .ok (mk 0 0) :=
  byteAndCount_ok.mpr ⟨Nat.two_pow_pos p.nbits, rfl⟩

theorem twoSequences_opcodePorts (mk : ByteSeq → ByteSeq → Instr) :
    twoSequences p (opcodePorts p op) mk = .ok (mk [] []) :=
  twoSequences_ok.mpr ⟨zero_inRange _ _, zero_inRange _ _, rfl⟩

theorem oneSequence_opcodePorts (mk : ByteSeq → Instr) : oneSequence p (opcodePorts p op) mk = .ok (mk []) :=
  oneSequence_ok.mpr ⟨zero_inRange _ _, rfl⟩

theorem sequenceAndCount_opcodePorts (mk : ByteSeq → Nat → Instr) :
    sequenceAndCount p (opcodePorts p op) mk = .ok (mk [] 0) :=
  sequenceAndCount_ok.mpr ⟨zero_inRange _ _, Nat.two_pow_pos p.nbits, rfl⟩

theorem oneString_opcodePorts (mk : ByteSeq → Instr) : oneString p (opcodePorts p op) mk = .ok (mk []) :=
  oneString_ok.mpr ⟨zero_inRange _ _, rfl⟩

/-- On zero operand ports the block's size does not reach the decoder: only whether there is a parser does. -/
theorem decode_opcodePorts_congr {p q : Params} (h : p.hasParser = q.hasParser) :
    decode p (opcodePorts p op) = decode q (opcodePorts q op) := by
  simp only [decode, opcodePorts_op, opcodePorts_ba, opcodePorts_bb, byteAndCount_opcodePorts,
    twoSequences_opcodePorts, oneSequence_opcodePorts, sequenceAndCount_opcodePorts, oneString_opcodePorts, h]

/-- What the table's word is decoded to, a block with a parser decodes from the ports that present it. -/
theorem decode_of_decodeTableWord {p : Params} {w : Nat} {i : Instr} (hp : p.hasParser = true)
    (h : decodeTableWord 8 w = some i) : decode p (opcodePorts p (BitVec.ofNat 8 w)) = .ok i := by
  rw [decode_opcodePorts_congr (q := Params.vectors) _ hp]
  unfold decodeTableWord at h
  split at h
  · split at h
    · next hd => cases h; exact hd
    · cases h
  · cases h

end zeroPorts

end Sys2Proof

namespace Sys2Proof.Machine

/-- A table word of 8 bits stands on `OP` as it is. -/
theorem tableWordPorts_eight (p : Params) (w : Nat) : tableWordPorts p 8 w = opcodePorts p (BitVec.ofNat 8 w) :=
  congrArg (opcodePorts p) (BitVec.eq_of_toNat_eq (by simp))

end Sys2Proof.Machine

namespace Sys2Proof.Claims
open Sys2Proof.Machine

/-- The four ranges of R59, and `PARSE`'s opcode without a parser, are the opcodes that are not legal. -/
theorem not_legalOp_iff {p : Params} {op : Byte} :
    legalOp p op = false ↔ Unmapped op ∨ (op = 0x20 ∧ p.hasParser = false) := by
  cases hp : p.hasParser <;>
    simp only [legalOp, Unmapped, hp, Bool.false_and, Bool.true_and, Bool.or_eq_false_iff, Bool.and_eq_false_iff,
      decide_eq_false_iff_not, beq_eq_false_iff_ne, ne_eq, and_true, reduceCtorEq, and_false, or_false] <;>
    bv_omega

/-- Settles O4: the decoder finds the opcode illegal before it reads any operand, and the step responds `ILLEGAL_OP`. -/
theorem illegalOpcodesRespondIllegalOp : Obligations.IllegalOpcodesRespondIllegalOp := by
  refine ⟨fun p r => decode_illegal_iff.trans not_legalOp_iff, by decide +kernel, fun s rest hpres hill => ?_⟩
  exact step_of_decode_error hpres (decode_illegal (not_legalOp_iff.mpr hill))

/-- Settles O1, row by row of the map. -/
theorem opcodeWordsDecode : Obligations.OpcodeWordsDecode := by
  unfold Obligations.OpcodeWordsDecode
  decide

/-- Settles O23: the placed word is what the next step samples, and its action is then off the host's list. -/
theorem fetchedTableWordsRun : Obligations.FetchedTableWordsRun := by
  intro s w i hp hw
  have hd : decode (s.withFetchWord 8 w).params (s.withFetchWord 8 w).ports = .ok i := by
    simpa only [State.withFetchWord, tableWordPorts_eight] using decode_of_decodeTableWord hp hw
  rw [step_of_decode_ok rfl hd]
  simp only [State.withFetchWord, takeAction, tableWordPorts_eight]

/-- Settles O50: without a parser the opcode is not legal and `PARSE` answers so; with one, port S is its operand. -/
theorem parseWithoutParserIsIllegal : Obligations.ParseWithoutParserIsIllegal := by
  refine ⟨fun p r hp hop => decode_illegal (not_legalOp_iff.mpr (.inr ⟨hop, hp⟩)),
    fun s str hp => execParse_of_noParser hp, fun p r x hp hop hs => ?_⟩
  obtain ⟨hlen, hlanes, rfl⟩ := hs
  rw [decode_parse hop, if_pos hp]
  exact oneString_ok.mpr ⟨⟨hlen, hlanes⟩, rfl⟩

end Sys2Proof.Claims
end

section
/-! PROOFS. The sequence operator, lane by lane and bit by bit. -/

namespace Sys2Proof.Machine

section lanes
variable {x y : ByteSeq} {i : Nat}

theorem laneWise_length (f : Byte → Byte → Byte) (h : x.length = y.length) : (laneWise f x y).length = x.length := by
  simp only [laneWise, List.length_zipWith, ← h, Nat.min_self]

@[simp] theorem seqNot_length (x : ByteSeq) : (seqNot x).length = x.length := List.length_map _

/-- Lane `i` of a lane-wise result is computed from lane `i` of the operands (R75). -/
theorem laneOr0_laneWise (f : Byte → Byte → Byte) (hx : i < x.length) (hy : i < y.length) :
    laneOr0 (laneWise f x y) i = f (laneOr0 x i) (laneOr0 y i) := by
  simp [laneOr0, laneWise, hx, hy]

theorem laneOr0_seqNot (h : i < x.length) : laneOr0 (seqNot x) i = ~~~laneOr0 x i := by
  simp [laneOr0, seqNot, byteNot, h]

/-- A sequence against itself cancels in every lane (R79). -/
theorem laneWise_byteXor_self (x : ByteSeq) : laneWise byteXor x x = zeroSeq x.length := by
  simp [laneWise, byteXor, zeroSeq]

end lanes

section bits

/-- The bits of a sequence: its first lane stands above all the others (R13). -/
theorem testBit_val_cons (b : Byte) (s : ByteSeq) (j : Nat) :
    (val (b :: s)).testBit j = if j < 8 * s.length then (val s).testBit j else b.toNat.testBit (j - 8 * s.length) := by
  have hlt : val s < 2 ^ (8 * s.length) := pow_two_mul_eight s.length ▸ val_lt s
  rw [val_cons, ← pow_two_mul_eight, Nat.mul_comm, Nat.testBit_two_pow_mul_add _ hlt]

/-- No bit of a sequence stands at its width or above (R13). -/
theorem testBit_val_of_ge {x : ByteSeq} {j : Nat} (h : 8 * x.length ≤ j) : (val x).testBit j = false := by
  have hlt : val x < 2 ^ (8 * x.length) := pow_two_mul_eight x.length ▸ val_lt x
  exact Nat.testBit_lt_two_pow (hlt.trans_le (Nat.pow_le_pow_right two_pos h))

/-- Bit `j` of `A | B` is computed from bit `j` of `A` and of `B` (R81). -/
theorem testBit_val_laneWise_byteOr {x y : ByteSeq} (h : x.length = y.length) (j : Nat) :
    (val (laneWise byteOr x y)).testBit j = ((val x).testBit j || (val y).testBit j) := by
  induction x generalizing y with
  | nil =>
    obtain rfl := List.length_eq_zero_iff.mp h.symm
    simp [laneWise]
  | cons a x ih =>
    cases y with
    | nil => cases h
    | cons b y =>
      have hxy : x.length = y.length := Nat.succ.inj h
      have hcons : laneWise byteOr (a :: x) (b :: y) = byteOr a b :: laneWise byteOr x y := rfl
      rw [hcons, testBit_val_cons, testBit_val_cons, testBit_val_cons, laneWise_length _ hxy, ← hxy, ih hxy]
      split
      · rfl
      · rw [byteOr, BitVec.toNat_or, Nat.testBit_or]

end bits

section shifts

/-- The left pass loses nothing: the carry stands above the lanes (R87). -/
theorem shlPass_value (n : Nat) (x : ByteSeq) :
    (shlPass n x).2 * 256 ^ x.length + val (shlPass n x).1 = val x * 2 ^ n := by
  induction x with
  | nil => simp
  | cons y rest ih =>
    have hbyte : 2 ^ 8 = 256 := rfl
    simp only [shlPass_cons, val_cons, shlPass_length, List.length_cons, BitVec.toNat_ofNat, hbyte]
    generalize (shlPass n rest).2 = c at *
    generalize val (shlPass n rest).1 = v at *
    have hsplit := Nat.div_add_mod (c + y.toNat * 2 ^ n) 256
    calc (c + y.toNat * 2 ^ n) / 256 * 256 ^ (rest.length + 1)
          + ((c + y.toNat * 2 ^ n) % 256 * 256 ^ rest.length + v)
        = (256 * ((c + y.toNat * 2 ^ n) / 256) + (c + y.toNat * 2 ^ n) % 256) * 256 ^ rest.length + v := by
          rw [pow_succ]; ring
      _ = (c * 256 ^ rest.length + v) + y.toNat * 256 ^ rest.length * 2 ^ n := by rw [hsplit]; ring
      _ = (y.toNat * 256 ^ rest.length + val rest) * 2 ^ n := by rw [ih]; ring

/-- `S.SHL` multiplies by `2^n`, within the width (R86). -/
theorem val_seqShl (x : ByteSeq) (n : Nat) : val (seqShl x n) = val x * 2 ^ n % 2 ^ (8 * x.length) := by
  have hlt : val (seqShl x n) < 256 ^ x.length := by simpa using val_lt (seqShl x n)
  rw [← shlPass_value, pow_two_mul_eight, Nat.mul_add_mod_self_right]
  exact (Nat.mod_eq_of_lt hlt).symm

/-- The right pass divides the running remainder and the lanes after it, taken as one integer (R92). -/
theorem val_shrPass {n c : Nat} (x : ByteSeq) (hc : c < 2 ^ n) :
    val (shrPass n c x) = (c * 256 ^ x.length + val x) / 2 ^ n := by
  induction x generalizing c with
  | nil => simp [Nat.div_eq_of_lt hc]
  | cons y rest ih =>
    have hpos : 0 < 2 ^ n := Nat.two_pow_pos n
    have hy : y.toNat < 256 := y.isLt
    have hlane : (c * 256 + y.toNat) / 2 ^ n < 256 := (Nat.div_lt_iff_lt_mul hpos).mpr (by omega)
    rw [shrPass_cons, val_cons, shrPass_length, ih (Nat.mod_lt _ hpos), BitVec.toNat_ofNat, Nat.mod_eq_of_lt hlane,
      val_cons, List.length_cons, ← Nat.mul_add_div hpos]
    congr 1
    have hsplit := Nat.div_add_mod (c * 256 + y.toNat) (2 ^ n)
    calc 2 ^ n * ((c * 256 + y.toNat) / 2 ^ n * 256 ^ rest.length)
          + ((c * 256 + y.toNat) % 2 ^ n * 256 ^ rest.length + val rest)
        = (2 ^ n * ((c * 256 + y.toNat) / 2 ^ n) + (c * 256 + y.toNat) % 2 ^ n) * 256 ^ rest.length + val rest := by
          ring
      _ = c * 256 ^ (rest.length + 1) + (y.toNat * 256 ^ rest.length + val rest) := by rw [hsplit, pow_succ]; ring

/-- `S.SHR` divides by `2^n` (R91). -/
theorem val_seqShr (x : ByteSeq) (n : Nat) : val (seqShr x n) = val x / 2 ^ n := by
  rw [seqShr, val_shrPass x (Nat.two_pow_pos n), Nat.zero_mul, Nat.zero_add]

/-- Bit `j` of a left shift is bit `j - n`, and zero below the count (R89). -/
theorem testBit_val_seqShl {x : ByteSeq} {j : Nat} (n : Nat) (h : j < 8 * x.length) :
    (val (seqShl x n)).testBit j = (decide (n ≤ j) && (val x).testBit (j - n)) := by
  rw [val_seqShl, Nat.testBit_mod_two_pow, Nat.testBit_mul_two_pow, decide_eq_true h, Bool.true_and]

/-- Bit `j` of a right shift is bit `j + n` (R94). -/
theorem testBit_val_seqShr (x : ByteSeq) (n j : Nat) :
    (val (seqShr x n)).testBit j = (val x).testBit (j + n) := by
  rw [val_seqShr, Nat.testBit_div_two_pow]

/-- The two shifts whose counts make up the width bring each bit to one place: together they rotate (R64). -/
theorem testBit_rotate {x : ByteSeq} {m n j : Nat} (hw : m + n = 8 * x.length)
    (hj : j < 8 * x.length) :
    ((val (seqShl x n)).testBit j || (val (seqShr x m)).testBit j) = (val x).testBit ((j + m) % (8 * x.length)) := by
  rw [testBit_val_seqShl n hj, testBit_val_seqShr]
  by_cases hjn : n ≤ j
  · have hwrap : (j + m) % (8 * x.length) = j - n := by
      rw [Nat.mod_eq_sub_mod (by omega), Nat.mod_eq_of_lt (by omega)]
      omega
    rw [hwrap, testBit_val_of_ge (j := j + m) (by omega), decide_eq_true hjn, Bool.true_and, Bool.or_false]
  · have hstay : (j + m) % (8 * x.length) = j + m := Nat.mod_eq_of_lt (by omega)
    rw [hstay, decide_eq_false hjn, Bool.false_and, Bool.false_or]

end shifts

end Sys2Proof.Machine
end

section
/-! PROOFS. The pseudo-instructions of R64: each command of an expansion completes, and the host goes on with its result. -/

namespace Sys2Proof.Machine

/-- The state after the host has driven a command's ports, presented it, and got `OK` with the result `r`. -/
def presented (i : Instr) (r : ByteSeq) (s : State) : State :=
  respond statusOk (some r) (hostDrive (encodeOnto s.ports i) s)

section presented
variable (i : Instr) (r : ByteSeq) (s : State)

@[simp] theorem presented_latch : (presented i r s).latch = ⟨0, some r⟩ := rfl
@[simp] theorem presented_params : (presented i r s).params = s.params := rfl
@[simp] theorem presented_host : (presented i r s).host = s.host := rfl

end presented

section present
variable {s : State} {x y : ByteSeq} {k : Nat}

/-- A command that fits the block runs when the host presents it (R139). -/
theorem present_of_wellFormed {i : Instr} (h : i.wellFormed s.params = true) :
    present i s = exec i { s with ports := encodeOnto s.ports i } := by
  have hfetch : fetch (hostDrive (encodeOnto s.ports i) s) = .ok i := decode_encodeOnto s.params s.ports h
  simp only [present, performCommand, hfetch]
  rfl

theorem withResult_presented (i : Instr) (r : ByteSeq) (s : State) (k : ByteSeq → State → Result) :
    withResult (.next (presented i r s)) k = k r (presented i r s) := rfl

theorem present_bXor (a b : Byte) (s : State) :
    present (.bXor a b) s = .next (presented (.bXor a b) [byteXor a b] s) := present_of_wellFormed rfl

theorem present_sNot (hx : x.length ≤ s.params.lmax) :
    present (.sNot x) s = .next (presented (.sNot x) (seqNot x) s) :=
  present_of_wellFormed (seqFits_iff.mpr hx)

theorem present_sShl (hx : x.length ≤ s.params.lmax) (hk : k < 2 ^ s.params.nbits) :
    present (.sShl x k) s = .next (presented (.sShl x k) (seqShl x k) s) :=
  present_of_wellFormed (Bool.and_eq_true_iff.mpr ⟨seqFits_iff.mpr hx, countFits_iff.mpr hk⟩)

theorem present_sShr (hx : x.length ≤ s.params.lmax) (hk : k < 2 ^ s.params.nbits) :
    present (.sShr x k) s = .next (presented (.sShr x k) (seqShr x k) s) :=
  present_of_wellFormed (Bool.and_eq_true_iff.mpr ⟨seqFits_iff.mpr hx, countFits_iff.mpr hk⟩)

/-- A two-operand command completes on operands of one length that fits (R76). -/
theorem present_laneWise {i : Instr} {f : Byte → Byte → Byte} (h : x.length = y.length) (hx : x.length ≤ s.params.lmax)
    (hfits : i.wellFormed s.params = (seqFits s.params x && seqFits s.params y))
    (hexec : ∀ t, exec i t = execLaneWise f x y t) : present i s = .next (presented i (laneWise f x y) s) := by
  have hwf : i.wellFormed s.params = true := by
    rw [hfits, seqFits_iff.mpr hx, seqFits_iff.mpr (h ▸ hx), Bool.and_self]
  rw [present_of_wellFormed hwf, hexec, execLaneWise, if_pos h]
  rfl

end present

section pseudo
variable {s : State} {x y : ByteSeq} {k : Nat}

theorem runMacro_of_applies {m : Macro} (h : m.applies = true) : runMacro m s = expandMacro m s := if_pos h

theorem runMacro_of_not_applies {m : Macro} (h : m.applies = false) : runMacro m s = .refused .macroCondition := by
  simp [runMacro, h]

theorem runMacro_sAndn (h : x.length = y.length) (hx : x.length ≤ s.params.lmax) :
    runMacro (.sAndn x y) s =
      .next (presented (.sAnd x (seqNot y)) (laneWise byteAnd x (seqNot y)) (presented (.sNot y) (seqNot y) s)) := by
  rw [runMacro_of_applies (m := .sAndn x y) (beq_iff_eq.mpr h), expandMacro, present_sNot (h ▸ hx), withResult_presented]
  exact present_laneWise (by rw [h, seqNot_length]) hx rfl fun _ => rfl

/-- The expansion of `S.ROL`: the shifted sequences, joined by `S.OR`. -/
theorem runMacro_sRol (hx : x.length ≤ s.params.lmax) (hk0 : 0 < k) (hkw : k < 8 * x.length)
    (hk : k < 2 ^ s.params.nbits) (hk' : 8 * x.length - k < 2 ^ s.params.nbits) :
    ∃ t, runMacro (.sRol x k) s =
      .next (presented (.sOr (seqShl x k) (seqShr x (8 * x.length - k)))
        (laneWise byteOr (seqShl x k) (seqShr x (8 * x.length - k))) t) ∧ t.params = s.params ∧ t.host = s.host := by
  rw [runMacro_of_applies (m := .sRol x k) (decide_eq_true ⟨hk0, hkw⟩), expandMacro, present_sShl hx hk, withResult_presented,
    present_sShr (s := presented _ _ s) hx hk', withResult_presented]
  exact ⟨_, present_laneWise (by simp) (by simpa using hx) rfl fun _ => rfl, rfl, rfl⟩

/-- The expansion of `S.ROR`: the shifted sequences, joined by `S.OR`. -/
theorem runMacro_sRor (hx : x.length ≤ s.params.lmax) (hk0 : 0 < k) (hkw : k < 8 * x.length)
    (hk : k < 2 ^ s.params.nbits) (hk' : 8 * x.length - k < 2 ^ s.params.nbits) :
    ∃ t, runMacro (.sRor x k) s =
      .next (presented (.sOr (seqShr x k) (seqShl x (8 * x.length - k)))
        (laneWise byteOr (seqShr x k) (seqShl x (8 * x.length - k))) t) ∧ t.params = s.params ∧ t.host = s.host := by
  rw [runMacro_of_applies (m := .sRor x k) (decide_eq_true ⟨hk0, hkw⟩), expandMacro, present_sShr hx hk, withResult_presented,
    present_sShl (s := presented _ _ s) hx hk', withResult_presented]
  exact ⟨_, present_laneWise (by simp) (by simpa using hx) rfl fun _ => rfl, rfl, rfl⟩

end pseudo

end Sys2Proof.Machine

namespace Sys2Proof.Claims
open Sys2Proof.Machine

/-- Settles O53: an operand exclusive-or itself is zero. -/
theorem macroClearGivesZero : Obligations.MacroClearGivesZero := by
  refine ⟨fun s x hx => ⟨_, present_laneWise rfl hx rfl fun _ => rfl, ?_, rfl, rfl⟩, fun s a => ⟨_, present_bXor a a s, ?_, rfl, rfl⟩⟩
  · rw [presented_latch, laneWise_byteXor_self]
  · rw [presented_latch, byteXor, BitVec.xor_self]
    rfl

/-- Settles O54: the complement keeps the length, so the conjunction runs lane by lane. -/
theorem macroAndnMasks : Obligations.MacroAndnMasks := by
  refine ⟨fun s x y h hx => ⟨_, _, runMacro_sAndn h hx, rfl, laneWise_length _ (by simpa using h), ?_, rfl, rfl⟩, ?_⟩
  · intro i hi
    rw [laneOr0_laneWise byteAnd hi (by simpa [← h] using hi), laneOr0_seqNot (h ▸ hi), byteAnd]
  · exact fun s x y h => runMacro_of_not_applies (beq_eq_false_iff_ne.mpr h)

/-- Settles O55: a left shift by `k` and a right shift by `8L - k` rotate right by `8L - k`. -/
theorem macroRotateLeft : Obligations.MacroRotateLeft := by
  intro s x k hx hk0 hkw hk hk'
  obtain ⟨t, hrun, hparams, hhost⟩ := runMacro_sRol hx hk0 hkw hk hk'
  refine ⟨_, _, hrun, rfl, by simp [laneWise], fun j hj => ?_, hparams, hhost⟩
  rw [testBit_val_laneWise_byteOr (by simp), testBit_rotate (by omega) hj]

/-- Settles O56: a right shift by `k` and a left shift by `8L - k` rotate right by `k`. -/
theorem macroRotateRight : Obligations.MacroRotateRight := by
  intro s x k hx hk0 hkw hk hk'
  obtain ⟨t, hrun, hparams, hhost⟩ := runMacro_sRor hx hk0 hkw hk hk'
  refine ⟨_, _, hrun, rfl, by simp [laneWise], fun j hj => ?_, hparams, hhost⟩
  rw [testBit_val_laneWise_byteOr (by simp), Bool.or_comm, testBit_rotate (by omega) hj]

end Sys2Proof.Claims
end

section
/-! PROOFS. The host's names, and the lines that use them (R63). -/

namespace Sys2Proof.Machine

section names
variable {m n : AsmName}

/-- The response that a name stood for earlier is no longer named (log entry 14). -/
theorem value_filter_self (n : AsmName) (env : AsmNames) :
    (SeqArg.named n).value (env.filter fun e => e.1 != n) = none := by
  have hnone : (env.filter fun e => e.1 != n).find? (fun e => e.1 == n) = none := by
    simp [List.find?_eq_none]
  rw [SeqArg.value, hnone, Option.map_none]

/-- Taking one name off leaves every other name its value: names are compared exactly (log entry 7). -/
theorem value_filter_of_ne (env : AsmNames) (h : n ≠ m) :
    (SeqArg.named m).value (env.filter fun e => e.1 != n) = (SeqArg.named m).value env := by
  have hsame : (fun e : AsmName × ByteSeq => decide ((e.1 != n) = true ∧ (e.1 == m) = true)) =
      fun e => e.1 == m := by
    funext e
    by_cases he : e.1 = m <;> simp [he, h.symm]
  rw [SeqArg.value, SeqArg.value, List.find?_filter, hsame]

theorem value_cons_self (n : AsmName) (r : ByteSeq) (env : AsmNames) :
    (SeqArg.named n).value ((n, r) :: env) = some r := by
  simp [SeqArg.value]

theorem value_cons_of_ne (r : ByteSeq) (env : AsmNames) (h : n ≠ m) :
    (SeqArg.named m).value ((n, r) :: env) = (SeqArg.named m).value env := by
  simp [SeqArg.value, h]

/-- A label names the result in the latch, or nothing where there is none. -/
theorem value_bindLabel_self (n : AsmName) (l : Latch) (env : AsmNames) :
    (SeqArg.named n).value (bindLabel (some n) l env) = l.result := by
  cases h : l.result with
  | none => simpa only [bindLabel, h] using value_filter_self n env
  | some r => simpa only [bindLabel, h] using value_cons_self n r _

/-- A line changes no name but its label. -/
theorem value_bindLabel_of_ne {label : Option AsmName} (l : Latch) (env : AsmNames) (h : label ≠ some m) :
    (SeqArg.named m).value (bindLabel label l env) = (SeqArg.named m).value env := by
  cases label with
  | none => rfl
  | some n =>
    have hne : n ≠ m := fun e => h (congrArg some e)
    cases hr : l.result with
    | none => simpa only [bindLabel, hr] using value_filter_of_ne env hne
    | some r => simpa only [bindLabel, hr] using (value_cons_of_ne r _ hne).trans (value_filter_of_ne env hne)

end names

section lines
variable {env : AsmNames} {s t : State} {label : Option AsmName}

theorem runLine_of_completes {l : AsmLine} {c : HostCommand} (hc : l.command.resolve env = some c)
    (hrun : runHostCommand c s = .next t) : runLine l env s = .next (bindLabel l.label t.latch env, t) := by
  simp only [runLine, hc, hrun]

theorem runLine_of_unbound {c : AsmCommand} (hc : c.resolve env = none) :
    runLine ⟨label, c⟩ env s = .refused .unboundName := by
  simp only [runLine, hc]

/-- A line depends on its command only through what the host presents for it. -/
theorem runLine_congr {c c' : AsmCommand} (h : c.resolve env = c'.resolve env) :
    runLine ⟨label, c⟩ env s = runLine ⟨label, c'⟩ env s := by
  simp only [runLine, h]

end lines

end Sys2Proof.Machine

namespace Sys2Proof.Claims
open Sys2Proof.Machine

section seqCommands
variable {env : AsmNames} {u v u' v' : SeqArg} {n : Nat} {c c' : AsmCommand}

/-- What the ten commands with sequence operands stand for, on operands that have values (R63, R64). -/
theorem resolve_seqCommands {x y : ByteSeq} (hu : u.value env = some x) (hv : v.value env = some y) :
    (seqCommands u v n).map (fun c => c.resolve env) =
      [some (.instr (.sAnd x y)), some (.instr (.sOr x y)), some (.instr (.sXor x y)), some (.pseudo (.sAndn x y)),
        some (.instr (.sNot x)), some (.instr (.sShl x n)), some (.instr (.sShr x n)), some (.pseudo (.sClr x)),
        some (.pseudo (.sRol x n)), some (.pseudo (.sRor x n))] := by
  simp only [seqCommands, List.map_cons, List.map_nil, AsmCommand.resolve, hu, hv, Option.bind_some, Option.map_some]

/-- The operands reach the ten commands by their values alone. -/
theorem resolve_seqCommands_congr (hu : u.value env = u'.value env) (hv : v.value env = v'.value env) :
    (seqCommands u v n).map (fun c => c.resolve env) = (seqCommands u' v' n).map (fun c => c.resolve env) := by
  simp only [seqCommands, List.map_cons, List.map_nil, AsmCommand.resolve, hu, hv]

/-- Two lists that a function takes to one list are taken there place by place. -/
theorem eq_of_mem_zip_of_map_eq {α β : Type} {f : α → β} {l l' : List α} {a a' : α} (h : l.map f = l'.map f)
    (hmem : (a, a') ∈ l.zip l') : f a = f a' := by
  induction l generalizing l' with
  | nil => cases hmem
  | cons b l ih =>
    cases l' with
    | nil => cases hmem
    | cons b' l' =>
      obtain ⟨hhead, htail⟩ := List.cons.inj h
      rcases List.mem_cons.mp hmem with heq | hmem
      · obtain ⟨rfl, rfl⟩ := Prod.mk.inj heq
        exact hhead
      · exact ih htail hmem

/-- Each of the ten commands uses its first operand. -/
theorem resolve_of_first_unbound (hu : u.value env = none) (hc : c ∈ seqCommands u v n) : c.resolve env = none := by
  have hall : ∀ o ∈ (seqCommands u v n).map (fun c => c.resolve env), o = none := by
    simp [seqCommands, AsmCommand.resolve, hu]
  exact hall _ (List.mem_map_of_mem hc)

/-- The first four of the ten commands use their second operand. -/
theorem resolve_of_second_unbound (hv : v.value env = none) (hc : c ∈ (seqCommands u v n).take 4) :
    c.resolve env = none := by
  have hall : ∀ o ∈ ((seqCommands u v n).take 4).map (fun c => c.resolve env), o = none := by
    simp [seqCommands, AsmCommand.resolve, hv]
  exact hall _ (List.mem_map_of_mem hc)

end seqCommands

/-- Settles O57, line by line. -/
theorem assemblerReadsItsSyntax : Obligations.AssemblerReadsItsSyntax := by
  unfold Obligations.AssemblerReadsItsSyntax
  decide

/-- Settles O58: names are resolved first, and an instruction that fits the block is then presented and completes. -/
theorem linesPresentTheirCommands : Obligations.LinesPresentTheirCommands := by
  refine ⟨fun env u v x y n hu hv => resolve_seqCommands hu hv, fun _ _ => rfl, fun _ _ _ _ _ => rfl, ?_,
    fun _ _ => rfl, ?_⟩
  · intro s i hi
    obtain ⟨t, ht⟩ := exec_next i { s with ports := encodeOnto s.ports i }
    exact ⟨t, (present_of_wellFormed hi).trans ht, ht⟩
  · intro l ls env env' s t h
    simp only [runLines, h]

/-- Settles O59: the label is bound to the latch after the line, every other name is kept, and operands count by their
values. -/
theorem namedResultsAreCopiedByTheHost : Obligations.NamedResultsAreCopiedByTheHost := by
  refine ⟨fun l env c s t hc hrun => ⟨_, runLine_of_completes hc hrun, fun n hn => ?_, fun m hm => ?_⟩,
    fun s env lab u u' v v' n c c' hu hv hmem => ?_, fun s env lab u v n => ⟨fun hu c hc => ?_, fun hv c hc => ?_⟩,
    fun s env m n x hm hx => ?_⟩
  · rw [hn, value_bindLabel_self]
  · exact value_bindLabel_of_ne t.latch env hm
  · exact runLine_congr (eq_of_mem_zip_of_map_eq (resolve_seqCommands_congr hu hv) hmem)
  · exact runLine_of_unbound (resolve_of_first_unbound hu hc)
  · exact runLine_of_unbound (resolve_of_second_unbound hv hc)
  · have hc : (AsmCommand.sNot (.named m)).resolve env = some (.instr (.sNot x)) := by
      rw [AsmCommand.resolve, hm, Option.map_some]
    have hline := runLine_of_completes (l := ⟨some n, .sNot (.named m)⟩) hc (present_sNot (s := s) hx)
    exact ⟨_, _, seqNot x, hline, rfl, value_bindLabel_self n _ env, seqNot_length x, fun i hi => laneOr0_seqNot hi, rfl⟩

end Sys2Proof.Claims
end

section
/-! PROOFS. The Byte Operator: the bits of each result (R67 to R72), and its commands, none of which can fail (R66). -/

namespace Sys2Proof.Machine

section logic
variable (a b : Byte)

theorem byteAnd_comm : byteAnd a b = byteAnd b a := BitVec.and_comm a b
theorem byteOr_comm : byteOr a b = byteOr b a := BitVec.or_comm a b
theorem byteXor_comm : byteXor a b = byteXor b a := BitVec.xor_comm a b

/-- Exclusive OR with every bit set is the complement (R69). -/
theorem byteXor_allOnes : byteXor a 0xFF = byteNot a := BitVec.xor_allOnes

theorem toNat_byteNot : (byteNot a).toNat = 255 - a.toNat := BitVec.toNat_not

@[simp] theorem byteNot_byteNot : byteNot (byteNot a) = a := BitVec.not_not

theorem getLsbD_byteNot {j : Nat} (h : j < 8) : (byteNot a).getLsbD j = !a.getLsbD j := by
  rw [byteNot, BitVec.getLsbD_not, decide_eq_true h, Bool.true_and]

end logic

section shifts
variable (a : Byte) {n : Nat}

theorem toNat_byteShl (n : Nat) : (byteShl a n).toNat = a.toNat * 2 ^ n % 256 := BitVec.toNat_ofNat _ 8

/-- The quotient still fits in a byte, so nothing is truncated (R73). -/
theorem toNat_byteShr (n : Nat) : (byteShr a n).toNat = a.toNat / 2 ^ n :=
  (BitVec.toNat_ofNat _ 8).trans (Nat.mod_eq_of_lt ((Nat.div_le_self _ _).trans_lt a.isLt))

/-- Multiplication modulo 256 by a power of two shifts the bits up (R71). -/
theorem byteShl_eq_shiftLeft (n : Nat) : byteShl a n = a <<< n := by
  apply BitVec.eq_of_toNat_eq
  rw [toNat_byteShl, BitVec.toNat_shiftLeft, Nat.shiftLeft_eq]

/-- Division by a power of two shifts the bits down, and zeros enter at bit 7 (R72). -/
theorem byteShr_eq_ushiftRight (n : Nat) : byteShr a n = a >>> n := by
  apply BitVec.eq_of_toNat_eq
  rw [toNat_byteShr, BitVec.toNat_ushiftRight, Nat.shiftRight_eq_div_pow]

theorem getLsbD_byteShl (n : Nat) {j : Nat} (h : j < 8) :
    (byteShl a n).getLsbD j = (decide (n ≤ j) && a.getLsbD (j - n)) := by
  rw [byteShl_eq_shiftLeft, BitVec.getLsbD_shiftLeft, decide_eq_true h, Bool.true_and, ← decide_not]
  simp only [Nat.not_lt]

theorem getLsbD_byteShr (n j : Nat) : (byteShr a n).getLsbD j = (decide (j + n ≤ 7) && a.getLsbD (j + n)) := by
  rw [byteShr_eq_ushiftRight, BitVec.getLsbD_ushiftRight, Nat.add_comm n j]
  by_cases h : j + n ≤ 7
  · simp [h]
  · simp [h, BitVec.getLsbD_of_ge a (j + n) (Nat.not_le.mp h)]

@[simp] theorem byteShl_zero : byteShl a 0 = a := (byteShl_eq_shiftLeft a 0).trans (BitVec.shiftLeft_zero a)

@[simp] theorem byteShr_zero : byteShr a 0 = a := (byteShr_eq_ushiftRight a 0).trans (BitVec.ushiftRight_zero a)

/-- Every bit is shifted out at the width (R74). -/
theorem byteShl_of_ge (h : 8 ≤ n) : byteShl a n = 0x00 :=
  (byteShl_eq_shiftLeft a n).trans (BitVec.shiftLeft_eq_zero h)

/-- Every bit is shifted out at the width (R74). -/
theorem byteShr_of_ge (h : 8 ≤ n) : byteShr a n = 0x00 :=
  (byteShr_eq_ushiftRight a n).trans (BitVec.ushiftRight_eq_zero h)

/-- What is the same for every count of 8 or more depends on the count only through `min(n, 8)` (R74). -/
theorem eq_min_eight_of_const {f : Nat → Byte} {c : Byte} (h : ∀ n, 8 ≤ n → f n = c) (n : Nat) : f n = f (min n 8) := by
  rcases Nat.le_total n 8 with hn | hn
  · rw [Nat.min_eq_left hn]
  · rw [Nat.min_eq_right hn, h n hn, h 8 le_rfl]

/-- Only bit 0 is left, at bit 7 (R71). -/
theorem byteShl_seven : byteShl a 7 = if a.getLsbD 0 then 0x80 else 0x00 := by
  apply BitVec.eq_of_getLsbD_eq
  intro j hj
  rw [getLsbD_byteShl a 7 hj]
  rcases Nat.lt_or_eq_of_le (Nat.le_of_lt_succ hj) with hlt | rfl
  · have hbit : (0x80#8).getLsbD j = false := by interval_cases j <;> rfl
    split <;> simp [hbit, Nat.not_le.mpr hlt]
  · cases a.getLsbD 0 <;> rfl

/-- Only bit 7 is left, at bit 0 (R72). -/
theorem byteShr_seven : byteShr a 7 = if a.getLsbD 7 then 0x01 else 0x00 := by
  apply BitVec.eq_of_getLsbD_eq
  intro j hj
  rw [getLsbD_byteShr]
  cases j with
  | zero => cases a.getLsbD 7 <;> simp
  | succ j => split <;> simp

end shifts

section opcodes
variable {p : Params} {r : Ports}

/-- Unit 0 holds six opcodes (R58). -/
theorem byteOpcode_cases {op : Byte} (h : op.toNat ≤ 0x05) :
    op = 0x00 ∨ op = 0x01 ∨ op = 0x02 ∨ op = 0x03 ∨ op = 0x04 ∨ op = 0x05 := by
  bv_omega

theorem byteAndCount_of_fits (mk : Byte → Nat → Instr) (h : r.shamt < 2 ^ p.nbits) :
    byteAndCount p r mk = .ok (mk r.ba r.shamt) := byteAndCount_ok.mpr ⟨h, rfl⟩

theorem decode_bShl_of_fits (hop : r.op = 0x04) (h : r.shamt < 2 ^ p.nbits) :
    decode p r = .ok (.bShl r.ba r.shamt) := (decode_bShl hop).trans (byteAndCount_of_fits .bShl h)

theorem decode_bShr_of_fits (hop : r.op = 0x05) (h : r.shamt < 2 ^ p.nbits) :
    decode p r = .ok (.bShr r.ba r.shamt) := (decode_bShr hop).trans (byteAndCount_of_fits .bShr h)

/-- An opcode of unit 0, with its count in range where it reads one, is an instruction that responds with one byte
(R65, R66). -/
theorem byteOpcode_responds (hop : r.op.toNat ≤ 0x05) (hn : readsShamt r.op = true → r.shamt < 2 ^ p.nbits) :
    ∃ i b, decode p r = .ok i ∧ ∀ s, exec i s = respondByte b s := by
  rcases byteOpcode_cases hop with h | h | h | h | h | h
  · exact ⟨_, _, decode_bAnd h, fun _ => rfl⟩
  · exact ⟨_, _, decode_bOr h, fun _ => rfl⟩
  · exact ⟨_, _, decode_bXor h, fun _ => rfl⟩
  · exact ⟨_, _, decode_bNot h, fun _ => rfl⟩
  · exact ⟨_, _, decode_bShl_of_fits h (hn (readsShamt_iff.mpr (.inl (.inl h)))), fun _ => rfl⟩
  · exact ⟨_, _, decode_bShr_of_fits h (hn (readsShamt_iff.mpr (.inl (.inr h)))), fun _ => rfl⟩

end opcodes

end Sys2Proof.Machine
end

section
/-! PROOFS. The statements about the Byte Operator. -/

namespace Sys2Proof.Claims
open Sys2Proof.Machine

/-- Settles O28: the count premise is the port's width, and the shift moves the bits up. -/
theorem byteShiftLeftIsLogical : Obligations.ByteShiftLeftIsLogical := by
  refine ⟨fun p r => decode_bShl_of_fits, fun s a n => ⟨byteShl a n, rfl, toNat_byteShl a n, byteShl_of_ge a,
    fun _ j hj => getLsbD_byteShl a n hj, ?_, ?_⟩, fun _ => rfl, fun _ => rfl⟩
  · rintro rfl
    exact byteShl_zero a
  · rintro rfl
    exact byteShl_seven a

/-- Settles O29: the count premise is the port's width, and the shift moves the bits down. -/
theorem byteShiftRightIsLogical : Obligations.ByteShiftRightIsLogical := by
  refine ⟨fun p r => decode_bShr_of_fits, fun s a n => ⟨byteShr a n, rfl, toNat_byteShr a n, byteShr_of_ge a,
    fun _ j _ => getLsbD_byteShr a n j, ?_, ?_⟩, fun _ => rfl, fun _ => rfl⟩
  · rintro rfl
    exact byteShr_zero a
  · rintro rfl
    exact byteShr_seven a

/-- Settles O31: from the width on, each shift is constant. -/
theorem byteShiftCountSaturatesAtEight : Obligations.ByteShiftCountSaturatesAtEight := by
  intro s a n
  have hshl : byteShl a n = byteShl a (min n 8) := eq_min_eight_of_const (fun _ => byteShl_of_ge a) n
  have hshr : byteShr a n = byteShr a (min n 8) := eq_min_eight_of_const (fun _ => byteShr_of_ge a) n
  refine ⟨congrArg (respondByte · s) hshl, congrArg (respondByte · s) hshr, fun h => ⟨?_, ?_⟩⟩
  · exact congrArg (respondByte · s) (byteShl_of_ge a h)
  · exact congrArg (respondByte · s) (byteShr_of_ge a h)

/-- Settles O24: the corner cases are laws of AND (R67). -/
theorem byteAndIsBitwise : Obligations.ByteAndIsBitwise := by
  refine ⟨fun p r => decode_bAnd, fun s a b => ⟨byteAnd a b, rfl, fun j _ => BitVec.getLsbD_and, ?_, ?_, ?_,
    congrArg (respondByte · s) (byteAnd_comm b a)⟩, fun _ => rfl⟩
  · rintro rfl
    exact BitVec.and_zero
  · rintro rfl
    exact BitVec.and_allOnes
  · rintro rfl
    exact BitVec.and_self

/-- Settles O25: the corner cases are laws of OR (R68). -/
theorem byteOrIsBitwise : Obligations.ByteOrIsBitwise := by
  refine ⟨fun p r => decode_bOr, fun s a b => ⟨byteOr a b, rfl, fun j _ => BitVec.getLsbD_or, ?_, ?_, ?_,
    congrArg (respondByte · s) (byteOr_comm b a)⟩, fun _ => rfl⟩
  · rintro rfl
    exact BitVec.or_zero
  · rintro rfl
    exact BitVec.or_allOnes
  · rintro rfl
    exact BitVec.or_self

/-- Settles O26: the corner cases are laws of exclusive OR, and `0xFF` complements every bit (R69). -/
theorem byteXorIsBitwise : Obligations.ByteXorIsBitwise := by
  refine ⟨fun p r => decode_bXor, fun s a b => ⟨byteXor a b, rfl, fun j _ => BitVec.getLsbD_xor, ?_, ?_, ?_,
    congrArg (respondByte · s) (byteXor_comm b a)⟩, fun _ => rfl⟩
  · rintro rfl
    exact BitVec.xor_self
  · rintro rfl
    exact BitVec.xor_zero
  · rintro rfl
    exact congrArg (respondByte · s) (byteXor_allOnes a).symm

/-- Settles O27: complementing a byte subtracts it from 255, and undoes itself (R70). -/
theorem byteNotIsOnesComplement : Obligations.ByteNotIsOnesComplement := by
  refine ⟨fun p r => decode_bNot, fun s a => ⟨byteNot a, rfl, toNat_byteNot a, fun j => getLsbD_byteNot a, ?_, ?_,
    congrArg (respondByte · s) (byteNot_byteNot a)⟩, fun _ => rfl⟩
  · rintro rfl
    rfl
  · rintro rfl
    rfl

/-- Settles O30: the command is decoded, and every instruction of unit 0 responds with one byte. -/
theorem byteCommandsAlwaysSucceed : Obligations.ByteCommandsAlwaysSucceed := by
  intro s rest hhost hop hn
  obtain ⟨i, b, hd, hexec⟩ := byteOpcode_responds hop hn
  exact ⟨b, (step_of_decode_ok hhost hd).trans (hexec _)⟩

end Sys2Proof.Claims
end

section
/-! PROOFS. The sequence operator's logic: the laws that a lane function hands on to whole sequences (R75, R81), and the
length check in front of it (R76). -/

namespace Sys2Proof.Machine

section lanes
variable {f : Byte → Byte → Byte}

theorem laneWise_comm (hf : ∀ a b, f a b = f b a) (x y : ByteSeq) : laneWise f x y = laneWise f y x :=
  List.zipWith_comm_of_comm hf

/-- What gives back a byte against itself gives back a sequence against itself. -/
theorem laneWise_self (hf : ∀ a, f a a = a) (x : ByteSeq) : laneWise f x x = x := by
  simp only [laneWise, List.zipWith_self, hf, List.map_id']

@[simp] theorem seqNot_seqNot (x : ByteSeq) : seqNot (seqNot x) = x := by
  simp only [seqNot, List.map_map, Function.comp_def, byteNot_byteNot, List.map_id']

end lanes

section integers
variable {x y : ByteSeq}

theorem getLsbD_byteAnd (a b : Byte) (j : Nat) : (byteAnd a b).getLsbD j = (a.getLsbD j && b.getLsbD j) :=
  BitVec.getLsbD_and

theorem getLsbD_byteXor (a b : Byte) (j : Nat) : (byteXor a b).getLsbD j = (a.getLsbD j ^^ b.getLsbD j) :=
  BitVec.getLsbD_xor

/-- What is bitwise on each byte is bitwise on the integer, where it leaves the bits above the lanes at zero (R81). -/
theorem testBit_val_laneWise {f : Byte → Byte → Byte} {op : Bool → Bool → Bool} (hzero : op false false = false)
    (hf : ∀ a b j, (f a b).getLsbD j = op (a.getLsbD j) (b.getLsbD j)) (h : x.length = y.length) (j : Nat) :
    (val (laneWise f x y)).testBit j = op ((val x).testBit j) ((val y).testBit j) := by
  induction x generalizing y with
  | nil =>
    obtain rfl := List.length_eq_zero_iff.mp h.symm
    simp [laneWise, hzero]
  | cons a x ih =>
    cases y with
    | nil => cases h
    | cons b y =>
      have hxy : x.length = y.length := Nat.succ.inj h
      have hcons : laneWise f (a :: x) (b :: y) = f a b :: laneWise f x y := rfl
      rw [hcons, testBit_val_cons, testBit_val_cons, testBit_val_cons, laneWise_length f hxy, ← hxy, ih hxy]
      split
      · rfl
      · simp only [BitVec.testBit_toNat, hf]

theorem val_laneWise_byteAnd (h : x.length = y.length) : val (laneWise byteAnd x y) = val x &&& val y := by
  apply Nat.eq_of_testBit_eq
  intro j
  rw [testBit_val_laneWise rfl getLsbD_byteAnd h, Nat.testBit_and]

theorem val_laneWise_byteOr (h : x.length = y.length) : val (laneWise byteOr x y) = val x ||| val y := by
  apply Nat.eq_of_testBit_eq
  intro j
  rw [testBit_val_laneWise_byteOr h, Nat.testBit_or]

theorem val_laneWise_byteXor (h : x.length = y.length) : val (laneWise byteXor x y) = val x ^^^ val y := by
  apply Nat.eq_of_testBit_eq
  intro j
  rw [testBit_val_laneWise rfl getLsbD_byteXor h, Nat.testBit_xor]

/-- A sequence and its complement add up to all ones (R80). -/
theorem val_seqNot_add_val (x : ByteSeq) : val (seqNot x) + val x + 1 = 256 ^ x.length := by
  induction x with
  | nil => rfl
  | cons a x ih =>
    have hcons : seqNot (a :: x) = byteNot a :: seqNot x := rfl
    have hbyte : (byteNot a).toNat + a.toNat + 1 = 256 := by
      have ha : a.toNat < 256 := a.isLt
      rw [toNat_byteNot]
      omega
    rw [hcons, val_cons, val_cons, seqNot_length, List.length_cons]
    calc (byteNot a).toNat * 256 ^ x.length + val (seqNot x) + (a.toNat * 256 ^ x.length + val x) + 1
        = ((byteNot a).toNat + a.toNat) * 256 ^ x.length + (val (seqNot x) + val x + 1) := by ring
      _ = ((byteNot a).toNat + a.toNat + 1) * 256 ^ x.length := by rw [ih]; ring
      _ = 256 ^ (x.length + 1) := by rw [hbyte, pow_succ, Nat.mul_comm]

theorem val_seqNot (x : ByteSeq) : val (seqNot x) = 2 ^ (8 * x.length) - 1 - val x := by
  rw [pow_two_mul_eight, ← val_seqNot_add_val x]
  omega

end integers

section lengthCheck
variable {x y : ByteSeq} (s : State)

theorem execLaneWise_of_length_eq (f : Byte → Byte → Byte) (h : x.length = y.length) :
    execLaneWise f x y s = complete (laneWise f x y) s := if_pos h

theorem execLaneWise_of_length_ne (f : Byte → Byte → Byte) (h : x.length ≠ y.length) :
    execLaneWise f x y s = fail statusLengthMismatch s := if_neg h

/-- The length check does not tell the operands apart either. -/
theorem execLaneWise_comm {f : Byte → Byte → Byte} (hf : ∀ a b, f a b = f b a) (x y : ByteSeq) :
    execLaneWise f x y s = execLaneWise f y x s := by
  by_cases h : x.length = y.length
  · rw [execLaneWise_of_length_eq s f h, execLaneWise_of_length_eq s f h.symm, laneWise_comm hf]
  · rw [execLaneWise_of_length_ne s f h, execLaneWise_of_length_ne s f (Ne.symm h)]

end lengthCheck

section opcodes
variable {p : Params} {r : Ports} {x y : ByteSeq}

/-- The sequence on a port has as many lanes as the length field says (R21, R35). -/
theorem length_of_presents {bound : Nat} {q : SeqPort} (h : Claims.Presents bound q x) : x.length = q.len := by
  obtain ⟨-, hlanes, rfl⟩ := h
  exact List.length_take_of_le hlanes

theorem twoSequences_of_presents (mk : ByteSeq → ByteSeq → Instr) (ha : Claims.Presents p.lmax r.a x)
    (hb : Claims.Presents p.lmax r.b y) : twoSequences p r mk = .ok (mk x y) := by
  obtain ⟨hax, ha', rfl⟩ := ha
  obtain ⟨hby, hb', rfl⟩ := hb
  exact twoSequences_ok.mpr ⟨⟨hax, ha'⟩, ⟨hby, hb'⟩, rfl⟩

theorem oneSequence_of_presents (mk : ByteSeq → Instr) (ha : Claims.Presents p.lmax r.a x) :
    oneSequence p r mk = .ok (mk x) := by
  obtain ⟨hax, ha', rfl⟩ := ha
  exact oneSequence_ok.mpr ⟨⟨hax, ha'⟩, rfl⟩

theorem decode_sAnd_of_presents (hop : r.op = 0x10) (ha : Claims.Presents p.lmax r.a x)
    (hb : Claims.Presents p.lmax r.b y) : decode p r = .ok (.sAnd x y) :=
  (decode_sAnd hop).trans (twoSequences_of_presents .sAnd ha hb)

theorem decode_sOr_of_presents (hop : r.op = 0x11) (ha : Claims.Presents p.lmax r.a x)
    (hb : Claims.Presents p.lmax r.b y) : decode p r = .ok (.sOr x y) :=
  (decode_sOr hop).trans (twoSequences_of_presents .sOr ha hb)

theorem decode_sXor_of_presents (hop : r.op = 0x12) (ha : Claims.Presents p.lmax r.a x)
    (hb : Claims.Presents p.lmax r.b y) : decode p r = .ok (.sXor x y) :=
  (decode_sXor hop).trans (twoSequences_of_presents .sXor ha hb)

/-- The three opcodes that read port B run one lane function behind one length check (R75, R76). -/
theorem twoOperandOpcode_runs_laneWise (hop : r.op = 0x10 ∨ r.op = 0x11 ∨ r.op = 0x12)
    (ha : Claims.Presents p.lmax r.a x) (hb : Claims.Presents p.lmax r.b y) :
    ∃ i f, decode p r = .ok i ∧ ∀ s, exec i s = execLaneWise f x y s := by
  rcases hop with h | h | h
  · exact ⟨_, byteAnd, decode_sAnd_of_presents h ha hb, fun _ => rfl⟩
  · exact ⟨_, byteOr, decode_sOr_of_presents h ha hb, fun _ => rfl⟩
  · exact ⟨_, byteXor, decode_sXor_of_presents h ha hb, fun _ => rfl⟩

end opcodes

end Sys2Proof.Machine
end

section
/-! PROOFS. How many lanes a result of unit 1 has (R83). -/

namespace Sys2Proof.Machine

/-- Whatever state the instruction runs in, a result it gives has `n` lanes. -/
def GivesLanes (i : Instr) (n : Nat) : Prop :=
  ∀ ⦃s t : State⦄ ⦃r : ByteSeq⦄, exec i s = .next t → t.latch.result = some r → r.length = n

section instructions
variable {i : Instr}

/-- An instruction that always succeeds gives the lanes it completes with. -/
theorem givesLanes_of_complete {q : ByteSeq} (hexec : ∀ s, exec i s = complete q s) : GivesLanes i q.length := by
  intro s t r hrun hr
  rw [hexec, complete_eq_next] at hrun
  subst hrun
  obtain rfl := Option.some.inj hr
  rfl

/-- A two-operand instruction gives the lanes of its first operand, where it gives any: only equal lengths come past the
check (R76). -/
theorem givesLanes_of_laneWise {f : Byte → Byte → Byte} {x y : ByteSeq} (hexec : ∀ s, exec i s = execLaneWise f x y s) :
    GivesLanes i x.length := by
  by_cases h : x.length = y.length
  · rw [← laneWise_length f h]
    exact givesLanes_of_complete fun s => (hexec s).trans (execLaneWise_of_length_eq s f h)
  · intro s t r hrun hr
    rw [hexec, execLaneWise_of_length_ne s f h, fail_eq_next] at hrun
    subst hrun
    cases hr

end instructions

section forms
variable {p : Params} {r : Ports} {i : Instr}

theorem givesLanes_of_twoSequences {mk : ByteSeq → ByteSeq → Instr}
    (hmk : ∀ x y, GivesLanes (mk x y) x.length) (h : twoSequences p r mk = .ok i) :
    GivesLanes i r.a.len := by
  obtain ⟨⟨-, ha⟩, -, rfl⟩ := twoSequences_ok.mp h
  simpa only [List.length_take_of_le ha] using hmk (r.a.lanes.take r.a.len) (r.b.lanes.take r.b.len)

theorem givesLanes_of_oneSequence {mk : ByteSeq → Instr} (hmk : ∀ x, GivesLanes (mk x) x.length)
    (h : oneSequence p r mk = .ok i) : GivesLanes i r.a.len := by
  obtain ⟨⟨-, ha⟩, rfl⟩ := oneSequence_ok.mp h
  simpa only [List.length_take_of_le ha] using hmk (r.a.lanes.take r.a.len)

theorem givesLanes_of_sequenceAndCount {mk : ByteSeq → Nat → Instr}
    (hmk : ∀ x n, GivesLanes (mk x n) x.length) (h : sequenceAndCount p r mk = .ok i) :
    GivesLanes i r.a.len := by
  obtain ⟨⟨-, ha⟩, -, rfl⟩ := sequenceAndCount_ok.mp h
  simpa only [List.length_take_of_le ha] using hmk (r.a.lanes.take r.a.len) r.shamt

/-- The six opcodes of unit 1 are those that read port A, and each gives as many lanes as `ALEN` says (R83). -/
theorem givesLanes_of_readsA (hop : readsA r.op = true) (hd : decode p r = .ok i) : GivesLanes i r.a.len := by
  rcases readsA_iff.mp hop with (h | h | h) | h | h | h
  · exact givesLanes_of_twoSequences (fun _ _ => givesLanes_of_laneWise fun _ => rfl) ((decode_sAnd h).symm.trans hd)
  · exact givesLanes_of_twoSequences (fun _ _ => givesLanes_of_laneWise fun _ => rfl) ((decode_sOr h).symm.trans hd)
  · exact givesLanes_of_twoSequences (fun _ _ => givesLanes_of_laneWise fun _ => rfl) ((decode_sXor h).symm.trans hd)
  · refine givesLanes_of_oneSequence (fun x => ?_) ((decode_sNot h).symm.trans hd)
    exact seqNot_length x ▸ givesLanes_of_complete fun _ => rfl
  · refine givesLanes_of_sequenceAndCount (fun x n => ?_) ((decode_sShl h).symm.trans hd)
    exact seqShl_length x n ▸ givesLanes_of_complete fun _ => rfl
  · refine givesLanes_of_sequenceAndCount (fun x n => ?_) ((decode_sShr h).symm.trans hd)
    exact seqShr_length x n ▸ givesLanes_of_complete fun _ => rfl

end forms

end Sys2Proof.Machine
end

section
/-! PROOFS. The statements about the sequence operator's logic. -/

namespace Sys2Proof.Claims
open Sys2Proof.Machine

/-- Settles O32: AND of bytes is bitwise, commutes, and gives back a byte against itself (R77). -/
theorem sequenceAndIsLaneWise : Obligations.SequenceAndIsLaneWise := by
  refine ⟨fun p r x y => decode_sAnd_of_presents, fun s x y => execLaneWise_of_length_ne s byteAnd, ?_,
    fun _ => rfl, fun _ => rfl⟩
  intro s x y h
  refine ⟨laneWise byteAnd x y, execLaneWise_of_length_eq s byteAnd h, laneWise_length byteAnd h,
    fun i hi => laneOr0_laneWise byteAnd hi (h ▸ hi), val_laneWise_byteAnd h, ?_, ?_,
    execLaneWise_comm s byteAnd_comm y x⟩
  · rintro rfl
    rfl
  · rintro rfl
    exact laneWise_self (fun _ => BitVec.and_self) x

/-- Settles O33: OR of bytes is bitwise, commutes, and gives back a byte against itself (R78). -/
theorem sequenceOrIsLaneWise : Obligations.SequenceOrIsLaneWise := by
  refine ⟨fun p r x y => decode_sOr_of_presents, fun s x y => execLaneWise_of_length_ne s byteOr, ?_, fun _ => rfl⟩
  intro s x y h
  refine ⟨laneWise byteOr x y, execLaneWise_of_length_eq s byteOr h, laneWise_length byteOr h,
    fun i hi => laneOr0_laneWise byteOr hi (h ▸ hi), val_laneWise_byteOr h, ?_, ?_,
    execLaneWise_comm s byteOr_comm y x⟩
  · rintro rfl
    rfl
  · rintro rfl
    exact laneWise_self (fun _ => BitVec.or_self) x

/-- Settles O34: exclusive OR of bytes is bitwise, commutes, and cancels a byte against itself (R79). -/
theorem sequenceXorIsLaneWise : Obligations.SequenceXorIsLaneWise := by
  refine ⟨fun p r x y => decode_sXor_of_presents, fun s x y => execLaneWise_of_length_ne s byteXor, ?_, fun _ => rfl⟩
  intro s x y h
  refine ⟨laneWise byteXor x y, execLaneWise_of_length_eq s byteXor h, laneWise_length byteXor h,
    fun i hi => laneOr0_laneWise byteXor hi (h ▸ hi), val_laneWise_byteXor h, ?_, ?_,
    execLaneWise_comm s byteXor_comm y x⟩
  · rintro rfl
    rfl
  · rintro rfl
    exact laneWise_byteXor_self x

/-- Settles O35: a lane and its complement add up to 255, and complementing twice gives the lane back (R80). -/
theorem sequenceNotIsLaneWise : Obligations.SequenceNotIsLaneWise := by
  refine ⟨fun p r x hop ha => (decode_sNot hop).trans (oneSequence_of_presents .sNot ha), fun s x => ?_, fun _ => rfl⟩
  refine ⟨seqNot x, rfl, seqNot_length x, fun i => laneOr0_seqNot, val_seqNot x, ?_,
    congrArg (complete · s) (seqNot_seqNot x)⟩
  rintro rfl
  rfl

/-- Settles O36: the command is a lane function behind the length check, and the check sees the two length fields. -/
theorem lengthMismatchDecidedByLengthFields : Obligations.LengthMismatchDecidedByLengthFields := by
  intro s rest x y hpres hop ha hb
  obtain ⟨i, f, hd, hexec⟩ := twoOperandOpcode_runs_laneWise hop ha hb
  have hstep : step s = execLaneWise f x y (takeAction rest s) := (step_of_decode_ok hpres hd).trans (hexec _)
  rw [hstep, ← length_of_presents ha, ← length_of_presents hb]
  exact ⟨execLaneWise_of_length_ne _ f, fun h => ⟨_, execLaneWise_of_length_eq _ f h⟩⟩

/-- Settles O37: an instruction of unit 1 gives `ALEN` lanes or none, and an illegal opcode gives no result. -/
theorem sequenceCommandsKeepLength : Obligations.SequenceCommandsKeepLength := by
  intro s t rest r hpres hlo hhi hstep hr
  have hop : readsA s.ports.op = true := Bool.and_eq_true_iff.mpr ⟨decide_eq_true hlo, decide_eq_true hhi⟩
  rw [step_present hpres] at hstep
  rcases performCommand_next hstep with ⟨i, hd, hexec⟩ | ⟨-, rfl⟩
  · exact givesLanes_of_readsA hop hd hexec hr
  · cases hr

end Sys2Proof.Claims
end

section
/-! PROOFS. The barrel shifter: what the two passes denote as integers (R86, R91), and what follows from it lane by lane
(R87, R89, R92, R94) and for counts that compose or reach the width (R90, R95, R97). -/

namespace Sys2Proof.Machine

section definitions
variable (x : ByteSeq) (n : Nat)

/-- `S.SHL` always succeeds, and writes the latch alone (R84). -/
theorem exec_sShl (s : State) : exec (.sShl x n) s = .next (Claims.okWith (seqShl x n) s) := rfl

/-- `S.SHR` always succeeds, and writes the latch alone (R84). -/
theorem exec_sShr (s : State) : exec (.sShr x n) s = .next (Claims.okWith (seqShr x n) s) := rfl

/-- The carry pass gives the sequence that R86 defines: `seq_L` of the product, within the width. -/
theorem seqShl_eq_seqOf : seqShl x n = seqOf x.length (val x * 2 ^ n % 2 ^ (8 * x.length)) := by
  rw [← val_seqShl, ← seqShl_length x n, seqOf_val]

/-- The remainder pass gives the sequence that R91 defines: `seq_L` of the quotient. -/
theorem seqShr_eq_seqOf : seqShr x n = seqOf x.length (val x / 2 ^ n) := by
  rw [← val_seqShr, ← seqShr_length x n, seqOf_val]

theorem val_lt_two_pow : val x < 2 ^ (8 * x.length) := pow_two_mul_eight x.length ▸ val_lt x

end definitions

section width
variable {x : ByteSeq} {n : Nat}

/-- A product by the modulus or more leaves nothing within the width (R90). -/
theorem seqShl_of_width_le (h : 8 * x.length ≤ n) : seqShl x n = zeroSeq x.length := by
  have hdvd : 2 ^ (8 * x.length) ∣ val x * 2 ^ n := (Nat.pow_dvd_pow 2 h).mul_left _
  apply eq_of_val_eq (by simp)
  rw [val_seqShl, val_zeroSeq, Nat.mod_eq_zero_of_dvd hdvd]

/-- The divisor is above the operand (R95). -/
theorem seqShr_of_width_le (h : 8 * x.length ≤ n) : seqShr x n = zeroSeq x.length := by
  have hlt : val x < 2 ^ n := (val_lt_two_pow x).trans_le (Nat.pow_le_pow_right two_pos h)
  apply eq_of_val_eq (by simp)
  rw [val_seqShr, val_zeroSeq, Nat.div_eq_of_lt hlt]

end width

section wholeLanes

/-- A left shift by as many lanes as stand in `u` shifts `u` out (R87). -/
theorem seqShl_append (u v : ByteSeq) : seqShl (u ++ v) (8 * u.length) = v ++ zeroSeq u.length := by
  have hlt : val v * 256 ^ u.length < 256 ^ (u.length + v.length) := by
    rw [Nat.pow_add, Nat.mul_comm]
    exact Nat.mul_lt_mul_of_pos_left (val_lt v) (by positivity)
  apply eq_of_val_eq (by simp [Nat.add_comm])
  rw [val_seqShl, val_append, val_append, val_zeroSeq, zeroSeq_length, pow_two_mul_eight, pow_two_mul_eight,
    List.length_append]
  calc (val u * 256 ^ v.length + val v) * 256 ^ u.length % 256 ^ (u.length + v.length)
      = (val v * 256 ^ u.length + val u * 256 ^ (u.length + v.length)) % 256 ^ (u.length + v.length) := by
        congr 1; ring
    _ = val v * 256 ^ u.length + 0 := by rw [Nat.add_mul_mod_self_right, Nat.mod_eq_of_lt hlt, Nat.add_zero]

/-- A right shift by as many lanes as stand in `v` shifts `v` out (R92). -/
theorem seqShr_append (u v : ByteSeq) : seqShr (u ++ v) (8 * v.length) = zeroSeq v.length ++ u := by
  apply eq_of_val_eq (by simp [Nat.add_comm])
  rw [val_seqShr, val_append, val_append, val_zeroSeq, pow_two_mul_eight, Nat.mul_comm,
    Nat.mul_add_div (by positivity), Nat.div_eq_of_lt (val_lt v), Nat.zero_mul, Nat.add_comm]

end wholeLanes

section laneBits
variable (x : ByteSeq) {i j : Nat}

/-- The bits of a lane, found in the integer: lane 0 is the most significant, and an absent lane is 0 (R13, R37). -/
theorem getLsbD_laneOr0 (i : Nat) (hj : j < 8) :
    (laneOr0 x i).getLsbD j = (decide (i < x.length) && (val x).testBit (8 * (x.length - 1 - i) + j)) := by
  induction x generalizing i with
  | nil => simp [laneOr0]
  | cons a x ih =>
    rw [testBit_val_cons, List.length_cons]
    cases i with
    | zero => simp [laneOr0, BitVec.testBit_toNat]
    | succ i =>
      have hlane : laneOr0 (a :: x) (i + 1) = laneOr0 x i := rfl
      rw [hlane, ih]
      by_cases hi : i < x.length
      · rw [if_pos (by omega)]
        simp [hi, show x.length - (i + 1) = x.length - 1 - i by omega]
      · simp [hi]

/-- The same bit, counted from a bit `k` of the integer that lies `n` places above it: an absent lane lies below bit 0. -/
theorem getLsbD_laneOr0_below {k n : Nat} (hj : j < 8) (hk : k + 8 * (i + 1) = 8 * x.length + j + n) :
    (laneOr0 x i).getLsbD j = (decide (n ≤ k) && (val x).testBit (k - n)) := by
  have hin : i < x.length ↔ n ≤ k := by omega
  rw [getLsbD_laneOr0 x i hj, decide_eq_decide.mpr hin]
  by_cases hn : n ≤ k
  · congr 2
    omega
  · rw [decide_eq_false hn, Bool.false_and, Bool.false_and]

/-- Lane `i` of the sequence moved down by `q` lanes, where a lane of negative index is 0 (R94). -/
def laneBefore (x : ByteSeq) (q i : Nat) : Byte := if q ≤ i then laneOr0 x (i - q) else 0

theorem toNat_laneBefore (q i : Nat) :
    (laneBefore x q i).toNat = if q ≤ i then (laneOr0 x (i - q)).toNat else 0 := apply_ite _ _ _ _

/-- The lanes of negative index stand where the integer has no more bits. -/
theorem getLsbD_laneBefore (q : Nat) (hi : i < x.length) (hj : j < 8) :
    (laneBefore x q i).getLsbD j = (val x).testBit (8 * (x.length - 1 - i + q) + j) := by
  rw [laneBefore]
  split
  next hq =>
    have hin : i - q < x.length := by omega
    have hpos : x.length - 1 - (i - q) = x.length - 1 - i + q := by omega
    rw [getLsbD_laneOr0 x _ hj, decide_eq_true hin, Bool.true_and, hpos]
  next hq => rw [testBit_val_of_ge (by omega), BitVec.ofNat_eq_ofNat, BitVec.getLsbD_zero]

end laneBits

section laneForms
variable {x : ByteSeq} {i b : Nat}

/-- A left shift by `8q + b` joins two neighbouring lanes, `q` and `q + 1` lanes further on (R89). -/
theorem laneOr0_seqShl (q : Nat) (hi : i < x.length) (hb : b ≤ 7) :
    laneOr0 (seqShl x (8 * q + b)) i =
      byteOr (byteShl (laneOr0 x (i + q)) b) (byteShr (laneOr0 x (i + q + 1)) (8 - b)) := by
  apply BitVec.eq_of_getLsbD_eq
  intro j hj
  have hbit : 8 * (x.length - 1 - i) + j < 8 * x.length := by omega
  rw [getLsbD_laneOr0 _ i hj, seqShl_length, decide_eq_true hi, Bool.true_and, testBit_val_seqShl _ hbit, byteOr,
    BitVec.getLsbD_or, getLsbD_byteShl _ _ hj, getLsbD_byteShr]
  by_cases hbj : b ≤ j
  · have hlow : ¬ j + (8 - b) ≤ 7 := by omega
    rw [decide_eq_true hbj, decide_eq_false hlow, Bool.true_and, Bool.false_and, Bool.or_false]
    exact (getLsbD_laneOr0_below x (by omega) (by omega)).symm
  · have hlow : j + (8 - b) ≤ 7 := by omega
    rw [decide_eq_false hbj, decide_eq_true hlow, Bool.true_and, Bool.false_and, Bool.false_or]
    exact (getLsbD_laneOr0_below x (by omega) (by omega)).symm

/-- A right shift by `8q + b` joins two neighbouring lanes, `q` and `q + 1` lanes back (R94). -/
theorem laneOr0_seqShr (q : Nat) (hi : i < x.length) (hb : b ≤ 7) :
    laneOr0 (seqShr x (8 * q + b)) i =
      byteOr (byteShr (laneBefore x q i) b) (byteShl (laneBefore x (q + 1) i) (8 - b)) := by
  apply BitVec.eq_of_getLsbD_eq
  intro j hj
  rw [getLsbD_laneOr0 _ i hj, seqShr_length, decide_eq_true hi, Bool.true_and, testBit_val_seqShr, byteOr,
    BitVec.getLsbD_or, getLsbD_byteShr, getLsbD_byteShl _ _ hj]
  by_cases hlow : j + b ≤ 7
  · have hhigh : ¬ 8 - b ≤ j := by omega
    rw [getLsbD_laneBefore x q hi (by omega), decide_eq_true hlow, decide_eq_false hhigh, Bool.true_and,
      Bool.false_and, Bool.or_false]
    congr 1
    omega
  · have hhigh : 8 - b ≤ j := by omega
    rw [getLsbD_laneBefore x (q + 1) hi (by omega), decide_eq_false hlow, decide_eq_true hhigh, Bool.true_and,
      Bool.false_and, Bool.false_or]
    congr 1
    omega

end laneForms

section compose
variable (x : ByteSeq) (m n : Nat)

/-- The product of products: what the first shift lets go above the width, the second would let go too (R97). -/
theorem seqShl_seqShl : seqShl (seqShl x m) n = seqShl x (m + n) := by
  apply eq_of_val_eq (by simp)
  rw [val_seqShl, val_seqShl, val_seqShl, seqShl_length, Nat.mod_mul_mod, Nat.pow_add, Nat.mul_assoc]

/-- The quotient of the quotient (R97). -/
theorem seqShr_seqShr : seqShr (seqShr x m) n = seqShr x (m + n) := by
  apply eq_of_val_eq (by simp)
  rw [val_seqShr, val_seqShr, val_seqShr, Nat.div_div_eq_div_mul, Nat.pow_add]

/-- There and back to the left keeps the bits that stay within the width, and no others (R97). -/
theorem val_seqShr_seqShl : val (seqShr (seqShl x n) n) = val x % 2 ^ (8 * x.length - n) := by
  apply Nat.eq_of_testBit_eq
  intro j
  rw [testBit_val_seqShr, Nat.testBit_mod_two_pow]
  by_cases hj : j + n < 8 * x.length
  · rw [testBit_val_seqShl n hj, decide_eq_true (Nat.le_add_left n j), decide_eq_true (Nat.lt_sub_of_add_lt hj),
      Nat.add_sub_cancel]
  · have hout : ¬ j < 8 * x.length - n := by omega
    rw [testBit_val_of_ge (by simpa using hj), decide_eq_false hout, Bool.false_and]

/-- There and back to the right gives the multiple of `2^n` at or below the operand: nothing leaves the width (R97). -/
theorem val_seqShl_seqShr : val (seqShl (seqShr x n) n) = val x - val x % 2 ^ n := by
  have hfits : val x / 2 ^ n * 2 ^ n < 2 ^ (8 * x.length) := (Nat.div_mul_le_self _ _).trans_lt (val_lt_two_pow x)
  rw [val_seqShl, val_seqShr, seqShr_length, Nat.mod_eq_of_lt hfits]
  exact Nat.eq_sub_of_add_eq (Nat.div_add_mod' _ _)

end compose

end Sys2Proof.Machine
end

section
/-! PROOFS. The statements about the barrel shifter. -/

namespace Sys2Proof.Claims
open Sys2Proof.Machine

/-- Settles O39: the carry pass denotes the product within the width, and a sequence is fixed by length and value. -/
theorem shiftLeftComputesItsDefinition : Obligations.ShiftLeftComputesItsDefinition := by
  intro s x n
  rw [exec_sShl, seqShl_eq_seqOf]

/-- Settles O40: the remainder pass denotes the quotient, and a sequence is fixed by length and value. -/
theorem shiftRightComputesItsDefinition : Obligations.ShiftRightComputesItsDefinition := by
  intro s x n
  rw [exec_sShr, seqShr_eq_seqOf]

/-- Settles O41: both forms read off the bits of the product. -/
theorem shiftLeftLaneForm : Obligations.ShiftLeftLaneForm := by
  intro s x q b hb
  refine ⟨_, exec_sShl x _ s, seqShl_length x _, fun i hi => ?_, fun k hk => testBit_val_seqShl _ hk⟩
  rw [laneOr0_seqShl q hi hb, byteOr, BitVec.toNat_or, toNat_byteShl, toNat_byteShr]

/-- Settles O42: both forms read off the bits of the quotient, and above the width the operand has none. -/
theorem shiftRightLaneForm : Obligations.ShiftRightLaneForm := by
  intro s x q b hb
  refine ⟨_, exec_sShr x _ s, seqShr_length x _, fun i hi => ?_, fun k => ?_⟩
  · rw [laneOr0_seqShr q hi hb, byteOr, BitVec.toNat_or, toNat_byteShr, toNat_byteShl, toNat_laneBefore,
      toNat_laneBefore, Nat.sub_sub]
  · rw [testBit_val_seqShr]
    by_cases hk : k + (8 * q + b) < 8 * x.length
    · rw [decide_eq_true hk, Bool.true_and]
    · rw [testBit_val_of_ge (Nat.not_lt.mp hk), Bool.and_false]

/-- Settles O43: the product is a multiple of the modulus. -/
theorem shiftLeftByTheWidthClears : Obligations.ShiftLeftByTheWidthClears := by
  intro s x n h
  rw [exec_sShl, seqShl_of_width_le h]

/-- Settles O44: the operand is below the divisor. -/
theorem shiftRightByTheWidthClears : Obligations.ShiftRightByTheWidthClears := by
  intro s x n h
  rw [exec_sShr, seqShr_of_width_le h]

/-- Settles O45: the operand is cut where the shift cuts it, after `q` lanes for the left shift and before the last `q`
for the right one. -/
theorem shiftByWholeLanesMovesLanes : Obligations.ShiftByWholeLanesMovesLanes := by
  intro s x q hq
  have htake : (x.take q).length = q := List.length_take_of_le hq
  have hdrop : (x.drop (x.length - q)).length = q := by rw [List.length_drop, Nat.sub_sub_self hq]
  have hleft := seqShl_append (x.take q) (x.drop q)
  have hright := seqShr_append (x.take (x.length - q)) (x.drop (x.length - q))
  rw [List.take_append_drop, htake] at hleft
  rw [List.take_append_drop, hdrop] at hright
  rw [exec_sShl, exec_sShr, hleft, hright]
  exact ⟨rfl, rfl⟩

/-- Settles O46: the laws of product and quotient by powers of two; the second response replaces the first (R23). -/
theorem shiftsCompose : Obligations.ShiftsCompose := by
  refine ⟨fun s x m n => ?_, fun s x m n => ?_, fun s x n => ?_, fun s x n => ?_⟩
  · refine ⟨_, exec_sShl x m s, ?_⟩
    rw [exec_sShl, exec_sShl, seqShl_seqShl]
    rfl
  · refine ⟨_, exec_sShr x m s, ?_⟩
    rw [exec_sShr, exec_sShr, seqShr_seqShr]
    rfl
  · exact ⟨_, _, exec_sShl x n s, exec_sShr _ n _, by simp, val_seqShr_seqShl x n⟩
  · exact ⟨_, _, exec_sShr x n s, exec_sShl _ n _, by simp, val_seqShl_seqShr x n⟩

end Sys2Proof.Claims
end

section
/-! PROOFS. The text of a string: which strings are digits after stripping (R100, R101), and what number their digits
denote through padding, partition and conversion (R102 to R104). -/

namespace Sys2Proof.Machine

/-- The statements' digit string is what stripping leaves (R100). -/
theorem strip_eq_digitsOf (str : ByteSeq) : strip str = Claims.digitsOf str := rfl

/-- A space goes, wherever it stands (R100). -/
theorem strip_insert_space (u v : ByteSeq) : strip (u ++ 0x20 :: v) = strip (u ++ v) := by
  simp [strip, charSpace]

theorem strip_replicate_space (n : Nat) : strip (List.replicate n 0x20) = [] := by
  simp [strip, charSpace]

section digits
variable {t u : ByteSeq} {c : Byte}

theorem isDigit_iff : isDigit c = true ↔ c = 0x30 ∨ c = 0x31 := by
  simp [isDigit, charZero, charOne]

theorem digitsOnly_iff : digitsOnly t = true ↔ ∀ c ∈ t, isDigit c = true := List.all_eq_true

theorem digitsOnly_cons : digitsOnly (c :: t) = true ↔ isDigit c = true ∧ digitsOnly t = true := by
  simp [digitsOnly]

theorem digitsOnly_append : digitsOnly (t ++ u) = true ↔ digitsOnly t = true ∧ digitsOnly u = true := by
  simp [digitsOnly]

/-- After stripping, the string is digits exactly where every octet is a space or a digit (R101). -/
theorem digitsOnly_strip_iff {str : ByteSeq} : digitsOnly (strip str) = true ↔ ∀ c ∈ str, ¬ Claims.BadOctet c := by
  rw [digitsOnly_iff]
  simp only [strip, List.mem_filter, bne_iff_ne, charSpace, isDigit_iff, and_imp]
  exact forall₂_congr fun c _ => by tauto

/-- Stripping leaves digits as they are. -/
theorem strip_of_digitsOnly (h : digitsOnly t = true) : strip t = t := by
  refine List.filter_eq_self.mpr fun c hc => ?_
  rcases isDigit_iff.mp (digitsOnly_iff.mp h c hc) with rfl | rfl <;> decide

theorem digitsOnly_padLeft (h : digitsOnly t = true) : digitsOnly (padLeft t) = true := by
  refine digitsOnly_append.mpr ⟨digitsOnly_iff.mpr fun c hc => ?_, h⟩
  rw [List.eq_of_mem_replicate hc]
  rfl

/-- A digit character counts for itself (R57). -/
theorem digit_value (h : isDigit c = true) : c.toNat - 0x30 = if c = 0x31 then 1 else 0 := by
  rcases isDigit_iff.mp h with rfl | rfl <;> rfl

theorem binaryNumeral_lt (h : digitsOnly t = true) : binaryNumeral t < 2 ^ t.length := by
  induction t with
  | nil => simp [binaryNumeral]
  | cons c t ih =>
    obtain ⟨hc, ht⟩ := digitsOnly_cons.mp h
    have hlt := ih ht
    rw [binaryNumeral, digit_value hc, List.length_cons, pow_succ]
    split <;> omega

/-- The statements' numeral, read from the front, is the model's, read by place value (R104). -/
theorem base2_eq_binaryNumeral (h : digitsOnly t = true) : Claims.base2 t = binaryNumeral t := by
  induction t using List.reverseRecOn with
  | nil => rfl
  | append_singleton t c ih =>
    obtain ⟨ht, hc⟩ := digitsOnly_append.mp h
    have hstep : Claims.base2 (t ++ [c]) = 2 * Claims.base2 t + if c = 0x31 then 1 else 0 := by
      simp [Claims.base2]
    have hdigit : binaryNumeral [c] = if c = 0x31 then 1 else 0 := by
      simpa [binaryNumeral] using digit_value (digitsOnly_cons.mp hc).1
    rw [hstep, ih ht, binaryNumeral_append, hdigit, List.length_singleton, pow_one, Nat.mul_comm]

/-- `m` chunks of 8 digits denote what their `8m` digits denote, because 8 digits fit one byte (R103). -/
theorem val_convertChunks (m : Nat) (hlen : t.length = 8 * m) (h : digitsOnly t = true) :
    val (convertChunks m t) = binaryNumeral t := by
  induction m generalizing t with
  | zero =>
    obtain rfl := List.length_eq_zero_iff.mp hlen
    rfl
  | succ m ih =>
    have htake : (t.take 8).length = 8 := by rw [List.length_take]; omega
    have hdrop : (t.drop 8).length = 8 * m := by rw [List.length_drop]; omega
    rw [← List.take_append_drop 8 t] at h
    obtain ⟨hfront, hback⟩ := digitsOnly_append.mp h
    have hbyte := binaryNumeral_lt hfront
    rw [htake] at hbyte
    calc val (convertChunks (m + 1) t)
        = binaryNumeral (t.take 8) * 256 ^ m + binaryNumeral (t.drop 8) := by
          rw [convertChunks, val_cons, convertChunks_length, BitVec.toNat_ofNat, Nat.mod_eq_of_lt hbyte, ih hdrop hback]
      _ = binaryNumeral (t.take 8 ++ t.drop 8) := by rw [binaryNumeral_append, hdrop, pow_two_mul_eight]
      _ = binaryNumeral t := by rw [List.take_append_drop]

/-- The result denotes the digits read in base 2 (R104). -/
theorem val_digitsToBytes (h : digitsOnly t = true) : val (digitsToBytes t) = Claims.base2 t := by
  have hlen : (padLeft t).length = 8 * ((padLeft t).length / 8) := by rw [padLeft_length]; omega
  rw [digitsToBytes, val_convertChunks _ hlen (digitsOnly_padLeft h), binaryNumeral_padLeft, base2_eq_binaryNumeral h]

end digits

/-- The low `k` bits of a byte as digit characters, most significant first. -/
def lowDigits (k : Nat) (b : Byte) : ByteSeq :=
  (List.range k).map fun j => if b.getLsbD (k - 1 - j) then 0x31 else 0x30

section written
variable (b : Byte) (x : ByteSeq)

@[simp] theorem lowDigits_length (k : Nat) : (lowDigits k b).length = k := by simp [lowDigits]

theorem lowDigits_succ (k : Nat) :
    lowDigits (k + 1) b = (if b.getLsbD k then 0x31 else 0x30) :: lowDigits k b := by
  rw [lowDigits, List.range_succ_eq_map, List.map_cons, List.map_map]
  refine congrArg _ (List.map_congr_left fun j _ => ?_)
  have hbit : k + 1 - 1 - (j + 1) = k - 1 - j := by omega
  rw [Function.comp_apply, Nat.succ_eq_add_one, hbit]

theorem digitsOnly_lowDigits (k : Nat) : digitsOnly (lowDigits k b) = true := by
  induction k with
  | zero => rfl
  | succ k ih =>
    rw [lowDigits_succ, digitsOnly_cons]
    refine ⟨?_, ih⟩
    split <;> rfl

/-- Each digit adds its bit to the number below it. -/
theorem binaryNumeral_lowDigits (k : Nat) : binaryNumeral (lowDigits k b) = b.toNat % 2 ^ k := by
  induction k with
  | zero => simp [lowDigits, binaryNumeral, Nat.mod_one]
  | succ k ih =>
    rw [lowDigits_succ, binaryNumeral, lowDigits_length, ih, Nat.mod_pow_succ, ← Nat.toNat_testBit, BitVec.testBit_toNat]
    cases b.getLsbD k <;> simp [Nat.add_comm]

theorem asDigits_cons : Claims.asDigits (b :: x) = lowDigits 8 b ++ Claims.asDigits x := rfl

theorem asDigits_length : (Claims.asDigits x).length = 8 * x.length := by
  induction x with
  | nil => rfl
  | cons b x ih =>
    rw [asDigits_cons, List.length_append, lowDigits_length, ih, List.length_cons]
    omega

theorem digitsOnly_asDigits : digitsOnly (Claims.asDigits x) = true := by
  induction x with
  | nil => rfl
  | cons b x ih => exact digitsOnly_append.mpr ⟨digitsOnly_lowDigits b 8, ih⟩

theorem binaryNumeral_asDigits : binaryNumeral (Claims.asDigits x) = val x := by
  induction x with
  | nil => rfl
  | cons b x ih =>
    rw [asDigits_cons, binaryNumeral_append, binaryNumeral_lowDigits, asDigits_length, pow_two_mul_eight, ih, val_cons,
      Nat.mod_eq_of_lt b.isLt]

/-- A sequence written out in binary is read back: length and value fix it (R104). -/
theorem digitsToBytes_asDigits : digitsToBytes (Claims.asDigits x) = x := by
  apply eq_of_val_eq
  · rw [digitsToBytes_length, asDigits_length]
    omega
  · have hdigits := digitsOnly_asDigits x
    rw [val_digitsToBytes hdigits, base2_eq_binaryNumeral hdigits, binaryNumeral_asDigits]

end written

end Sys2Proof.Machine
end

section
/-! PROOFS. What `PARSE` can leave in the latch: the response of the pseudocode, or one of the two errors that the
parameters decide (R61, R99, R106). -/

namespace Sys2Proof.Machine

/-- The response of the pseudocode of R99 on a string. -/
def parseLatch (str : ByteSeq) : Latch :=
  if digitsOnly (strip str) then ⟨statusOk, some (digitsToBytes (strip str))⟩ else ⟨statusBadFormat, none⟩

section parseLatch
variable {str : ByteSeq}

theorem parseString_eq (str : ByteSeq) (s : State) : parseString str s = .next { s with latch := parseLatch str } := by
  unfold parseString parseLatch
  split <;> rfl

theorem parseLatch_of_good (h : ∀ c ∈ str, ¬ Claims.BadOctet c) :
    parseLatch str = ⟨0, some (digitsToBytes (strip str))⟩ := if_pos (digitsOnly_strip_iff.mpr h)

theorem parseLatch_of_bad (h : ∃ c ∈ str, Claims.BadOctet c) : parseLatch str = ⟨2, none⟩ := by
  obtain ⟨c, hc, hbad⟩ := h
  exact if_neg fun hdigits => digitsOnly_strip_iff.mp hdigits c hc hbad

/-- The two responses of the pseudocode, and the strings that get them (R101, R112). -/
theorem parseLatch_cases (str : ByteSeq) :
    ((∃ c ∈ str, Claims.BadOctet c) ∧ parseLatch str = ⟨2, none⟩) ∨
    ((∀ c ∈ str, ¬ Claims.BadOctet c) ∧ parseLatch str = ⟨0, some (digitsToBytes (strip str))⟩) := by
  by_cases h : ∃ c ∈ str, Claims.BadOctet c
  · exact .inl ⟨h, parseLatch_of_bad h⟩
  · have hgood : ∀ c ∈ str, ¬ Claims.BadOctet c := fun c hc hbad => h ⟨c, hc, hbad⟩
    exact .inr ⟨hgood, parseLatch_of_good hgood⟩

end parseLatch

section exec
variable {str str' : ByteSeq} {s t : State}

theorem exec_parse_of_steady (hp : s.params.hasParser = true) (hf : s.params.parseValidationMayFail = false) :
    exec (.parse str) s = .next { s with latch := parseLatch str } :=
  (execParse_of_steady hp hf).trans (parseString_eq str s)

theorem exec_parse_of_mayFail (hp : s.params.hasParser = true) (hf : s.params.parseValidationMayFail = true) :
    exec (.parse str) s = .next { s with
      draws := s.draws + 1
      latch := if Config.validationDraw s.draws then ⟨3, none⟩ else parseLatch str } := by
  refine (execParse_of_mayFail hp hf).trans ?_
  split
  · rfl
  · exact parseString_eq str (takeDraw s)

/-- Everything `PARSE` can leave in the latch, and in which block or on which string (R61, R106, R101, R112). -/
theorem exec_parse_latch (h : exec (.parse str) s = .next t) :
    (s.params.hasParser = false ∧ t.latch = ⟨4, none⟩) ∨
    (s.params.parseValidationMayFail = true ∧ t.latch = ⟨3, none⟩) ∨
    ((∃ c ∈ str, Claims.BadOctet c) ∧ t.latch = ⟨2, none⟩) ∨
    ((∀ c ∈ str, ¬ Claims.BadOctet c) ∧ t.latch = ⟨0, some (digitsToBytes (strip str))⟩) := by
  cases hp : s.params.hasParser with
  | false =>
    obtain rfl := (fail_eq_next _ s t).mp ((execParse_of_noParser hp).symm.trans h)
    exact .inl ⟨rfl, rfl⟩
  | true =>
    cases hf : s.params.parseValidationMayFail with
    | false =>
      rw [exec_parse_of_steady hp hf, Host.Outcome.next.injEq] at h
      subst h
      exact .inr (.inr (parseLatch_cases str))
    | true =>
      rw [exec_parse_of_mayFail hp hf, Host.Outcome.next.injEq] at h
      subst h
      cases Config.validationDraw s.draws with
      | true => exact .inr (.inl ⟨rfl, rfl⟩)
      | false => exact .inr (.inr (parseLatch_cases str))

/-- A result of `PARSE` is the conversion of a string of spaces and digits: no error has one (R110). -/
theorem exec_parse_result {r : ByteSeq} (h : exec (.parse str) s = .next t) (hr : t.latch.result = some r) :
    r = digitsToBytes (strip str) := by
  rcases exec_parse_latch h with ⟨-, hl⟩ | ⟨-, hl⟩ | ⟨-, hl⟩ | ⟨-, hl⟩
  case inr.inr.inr => exact Option.some.inj (hr.symm.trans (by rw [hl]))
  all_goals simp [hl] at hr

/-- `PARSE` sees a string through its stripped form alone (R99, R100). -/
theorem exec_parse_congr (h : strip str = strip str') : exec (.parse str) s = exec (.parse str') s := by
  simp only [exec, execParse, parseString, h]

end exec

end Sys2Proof.Machine

namespace Sys2Proof.Claims
open Sys2Proof.Machine

/-- The conversion of a string of spaces and digits: its length and its value (R104). -/
theorem digitsToBytes_length_and_value {str : ByteSeq} (h : ∀ c ∈ str, ¬ BadOctet c) :
    (digitsToBytes (strip str)).length = ((digitsOf str).length + 7) / 8 ∧
      val (digitsToBytes (strip str)) = base2 (digitsOf str) := by
  rw [← strip_eq_digitsOf]
  exact ⟨digitsToBytes_length _, val_digitsToBytes (digitsOnly_strip_iff.mpr h)⟩

/-- Settles O47: conversion keeps the number, `OK` comes from the pseudocode alone, and length and value fix a
sequence. -/
theorem parseValueAndLength : Obligations.ParseValueAndLength := by
  refine ⟨fun s str hp hf hgood => ?_, fun s t str h hok => ?_, fun s x hp hf => ?_⟩
  · refine ⟨_, ?_, digitsToBytes_length_and_value hgood⟩
    rw [exec_parse_of_steady hp hf, parseLatch_of_good hgood, okWith]
  · rcases exec_parse_latch h with ⟨-, hl⟩ | ⟨-, hl⟩ | ⟨-, hl⟩ | ⟨hgood, hl⟩
    case inr.inr.inr => exact ⟨hgood, _, by rw [hl], digitsToBytes_length_and_value hgood⟩
    all_goals simp [hl] at hok
  · have hstrip := strip_of_digitsOnly (digitsOnly_asDigits x)
    have hgood := digitsOnly_strip_iff.mp (hstrip.symm ▸ digitsOnly_asDigits x)
    rw [exec_parse_of_steady hp hf, parseLatch_of_good hgood, hstrip, digitsToBytes_asDigits, okWith]

/-- Settles O48: only the pseudocode responds `BAD_FORMAT`, and it does so exactly on a bad octet. -/
theorem badFormatExactlyOnBadOctets : Obligations.BadFormatExactlyOnBadOctets := by
  refine ⟨fun s t str h hbad => ?_, fun s str hp hf hbad => ?_⟩
  · rcases exec_parse_latch h with ⟨-, hl⟩ | ⟨-, hl⟩ | ⟨hoctet, hl⟩ | ⟨-, hl⟩
    case inr.inr.inl => exact ⟨by rw [hl], hoctet⟩
    all_goals simp [hl] at hbad
  · rw [exec_parse_of_steady hp hf, parseLatch_of_bad hbad, errWith]

/-- Settles O49: `l` is the response of the pseudocode, which never is `VALIDATION_FAILURE`; the counter is the model's
own (log entry 3). -/
theorem validationFailureIsAFreeDraw : Obligations.ValidationFailureIsAFreeDraw := by
  refine ⟨fun s str hp hf => ⟨parseLatch str, exec_parse_of_steady hp rfl, exec_parse_of_mayFail hp hf⟩,
    fun s t str hf h hfail => ?_⟩
  rcases exec_parse_latch h with ⟨-, hl⟩ | ⟨hmay, -⟩ | ⟨-, hl⟩ | ⟨-, hl⟩
  case inr.inl => exact absurd (hf.symm.trans hmay) (by decide)
  all_goals simp [hl] at hfail

/-- Settles O52: stripping only shortens, 8 digits make a lane, and `SMAX <= 8*LMAX` (R10). -/
theorem parseResultAlwaysFits : Obligations.ParseResultAlwaysFits := by
  intro s t str r hvalid hwf h hr
  obtain ⟨-, -, hbound⟩ := hvalid
  simp only [Instr.wellFormed, stringFits, Bool.and_eq_true, decide_eq_true_eq] at hwf
  obtain ⟨hp, hstr⟩ := hwf
  rw [exec_parse_result h hr]
  exact digitsToBytes_strip_length_le (hstr.trans (hbound hp))

/-- Settles O51: the space is gone after stripping, and of spaces only nothing is left. -/
theorem parseIgnoresSpaces : Obligations.ParseIgnoresSpaces := by
  refine ⟨fun s u v => exec_parse_congr (strip_insert_space u v), fun s n hp hf => ?_⟩
  exact (exec_parse_congr (str' := []) (strip_replicate_space n)).trans (exec_parse_of_steady hp hf)

end Sys2Proof.Claims
end

section
/-! PROOFS. The response table (R110): which instruction can leave which status, and which ports present it. -/

namespace Sys2Proof

section presented
variable {p : Params} {r : Ports} {i : Instr} {x y : ByteSeq}

/-- Only a legal opcode decodes to an instruction (R59, R61). -/
theorem legalOp_of_decode (h : decode p r = .ok i) : legalOp p r.op = true := by
  by_contra hill
  rw [Bool.not_eq_true] at hill
  cases h.symm.trans (decode_illegal hill)

/-- A two-operand instruction comes from one of the three opcodes that read port B, and its operands are as long as the
two length fields say (R21, R58), because encoding it gives the same ports back. -/
theorem ports_of_decode_twoOperands (hd : decode p r = .ok i) (hi : i = .sAnd x y ∨ i = .sOr x y ∨ i = .sXor x y) :
    (r.op = 0x10 ∨ r.op = 0x11 ∨ r.op = 0x12) ∧ x.length = r.a.len ∧ y.length = r.b.len := by
  have hop := decode_opcode hd
  have henc := encodeOnto_of_decode hd
  have ha := congrArg (fun r : Ports => r.a.len) henc
  have hb := congrArg (fun r : Ports => r.b.len) henc
  rcases hi with rfl | rfl | rfl
  · exact ⟨.inl hop.symm, ha, hb⟩
  · exact ⟨.inr (.inl hop.symm), ha, hb⟩
  · exact ⟨.inr (.inr hop.symm), ha, hb⟩

end presented

end Sys2Proof

namespace Sys2Proof.Machine

section responses
variable {s t : State}

/-- A command that succeeds leaves `OK` and a result (R22, R110). -/
theorem ok_of_complete {r : ByteSeq} (h : complete r s = .next t) : t.latch.status = 0 ∧ t.latch.rvalid = true := by
  obtain rfl := (complete_eq_next r s t).mp h
  exact ⟨rfl, rfl⟩

/-- The two responses of a two-operand instruction (R76, R111). -/
theorem execLaneWise_latch {f : Byte → Byte → Byte} {x y : ByteSeq} (h : execLaneWise f x y s = .next t) :
    (t.latch.status = 0 ∧ t.latch.rvalid = true) ∨ (t.latch = ⟨1, none⟩ ∧ x.length ≠ y.length) := by
  by_cases hlen : x.length = y.length
  · rw [execLaneWise_of_length_eq s f hlen] at h
    exact .inl (ok_of_complete h)
  · rw [execLaneWise_of_length_ne s f hlen, fail_eq_next] at h
    subst h
    exact .inr ⟨rfl, hlen⟩

/-- Everything an instruction that fits the block can leave in the latch, and which instruction leaves it (R110 to
R113). -/
theorem exec_latch_cases {i : Instr} (hi : i.wellFormed s.params = true) (h : exec i s = .next t) :
    (t.latch.status = 0 ∧ t.latch.rvalid = true) ∨
    (t.latch = ⟨1, none⟩ ∧ ∃ x y, (i = .sAnd x y ∨ i = .sOr x y ∨ i = .sXor x y) ∧ x.length ≠ y.length) ∨
    (t.latch = ⟨2, none⟩ ∧ (∃ str, i = .parse str) ∧ s.params.hasParser = true) ∨
    (t.latch = ⟨3, none⟩ ∧ (∃ str, i = .parse str) ∧ s.params.hasParser = true ∧
      s.params.parseValidationMayFail = true) := by
  cases i with
  | bAnd a b | bOr a b | bXor a b | bNot a | bShl a n | bShr a n => exact .inl (ok_of_complete h)
  | sNot x | sShl x n | sShr x n => exact .inl (ok_of_complete h)
  | sAnd x y | sOr x y | sXor x y =>
    exact (execLaneWise_latch h).imp_right fun ⟨hl, hlen⟩ => .inl ⟨hl, x, y, by simp, hlen⟩
  | parse str =>
    obtain ⟨hp, -⟩ := Bool.and_eq_true_iff.mp hi
    rcases exec_parse_latch h with ⟨hno, -⟩ | ⟨hf, hl⟩ | ⟨-, hl⟩ | ⟨-, hl⟩
    · exact absurd (hno.symm.trans hp) Bool.false_ne_true
    · exact .inr (.inr (.inr ⟨hl, ⟨str, rfl⟩, hp, hf⟩))
    · exact .inr (.inr (.inl ⟨hl, ⟨str, rfl⟩, hp⟩))
    · exact .inl ⟨congrArg Latch.status hl, congrArg Latch.rvalid hl⟩

end responses

end Sys2Proof.Machine

namespace Sys2Proof.Claims
open Sys2Proof.Machine

/-- Settles O11: an illegal opcode responds `ILLEGAL_OP`, and any other is decoded to an instruction, whose status says
which one it is; its opcode and its operands' lengths are those on the ports. -/
theorem commandResponseTable : Obligations.CommandResponseTable := by
  intro s t rest hpres hstep
  rw [step_present hpres] at hstep
  rcases performCommand_next hstep with ⟨i, hd, hexec⟩ | ⟨hd, rfl⟩
  case inr => exact .inr (.inr (.inr (.inr ⟨rfl, decode_illegal_iff.mp hd⟩)))
  rw [takeAction_params, takeAction_ports] at hd
  rcases exec_latch_cases (s := takeAction rest s) (decode_wellFormed hd) hexec with
    ⟨hstatus, hvalid⟩ | ⟨hl, x, y, hi, hne⟩ | ⟨hl, ⟨str, rfl⟩, hp⟩ | ⟨hl, ⟨str, rfl⟩, hp, hf⟩
  · exact .inl ⟨hstatus, hvalid, legalOp_of_decode hd⟩
  · obtain ⟨hop, ha, hb⟩ := ports_of_decode_twoOperands hd hi
    exact .inr (.inl ⟨hl, hop, ha ▸ hb ▸ hne⟩)
  · exact .inr (.inr (.inl ⟨hl, (decode_opcode hd).symm, hp⟩))
  · exact .inr (.inr (.inr (.inl ⟨hl, (decode_opcode hd).symm, hp, hf⟩)))

end Sys2Proof.Claims
end

section
/-! PROOFS. Reset (R130 to R133): it writes the latch alone, which no command reads and no command leaves `IDLE`. -/

namespace Sys2Proof.Machine

section latch
variable {s t : State} {rest : List HostAction}

/-- Rejecting a request does not read the latch (R17). -/
theorem rejectRequest_latch (e : Reject) (s : State) (l : Latch) :
    rejectRequest e { s with latch := l } = rejectRequest e s := by cases e <;> rfl

/-- A presented command, run, rejected or refused, has one outcome whatever stands in the latch (R17, R23). -/
theorem step_present_latch (hh : s.host = .present :: rest) (l : Latch) : step { s with latch := l } = step s := by
  cases hd : decode s.params s.ports with
  | ok i =>
    rw [step_of_decode_ok hh hd, step_of_decode_ok (s := { s with latch := l }) hh hd]
    exact exec_latch i (takeAction rest s) l
  | error e =>
    rw [step_of_decode_error hh hd, step_of_decode_error (s := { s with latch := l }) hh hd]
    exact rejectRequest_latch e (takeAction rest s) l

/-- A step that presents no command leaves the latch as it is or resets it (R24, R130). -/
theorem step_latch_of_not_present (hno : ∀ rest, s.host ≠ .present :: rest) (h : step s = .next t) :
    t.latch = s.latch ∨ t.latch = Latch.idle := by
  rcases step_next h with ⟨-, rfl⟩ | ⟨r, rest, -, rfl⟩ | ⟨rest, hh, -⟩ | ⟨f, rest, v, -, -, rfl⟩ | ⟨rest, -, rfl⟩
  case inl => exact .inl rfl
  case inr.inl => exact .inl rfl
  case inr.inr.inl => exact absurd hh (hno rest)
  case inr.inr.inr.inl => exact .inl rfl
  case inr.inr.inr.inr => exact .inr rfl

end latch

end Sys2Proof.Machine

namespace Sys2Proof.Claims
open Sys2Proof.Machine

/-- Settles O16: the reset event is `hostReset`, whose latch is `Latch.idle`, as at power-on. -/
theorem resetEventSetsTheLatchOnly : Obligations.ResetEventSetsTheLatchOnly :=
  fun _ _ h => ⟨step_reset h, rfl⟩

/-- Settles O18: a reset writes the latch alone, and a presented command has the same outcome on every latch. -/
theorem resetDoesNotChangeResponses : Obligations.ResetDoesNotChangeResponses := by
  intro s rest h
  exact ⟨_, step_reset h, step_present_latch (s := takeAction (.present :: rest) s) rfl Latch.idle⟩

/-- The response table has no row with status 7 (R110, R133). -/
theorem status_ne_idle_of_presenting {s t : State} {rest : List HostAction} (hpres : Presenting s rest)
    (hstep : step s = .next t) : t.latch.status ≠ 7 := by
  rcases commandResponseTable s t rest hpres hstep with ⟨hok, -⟩ | ⟨hl, -⟩ | ⟨hl, -⟩ | ⟨hl, -⟩ | ⟨hl, -⟩
  · rw [hok]; decide
  all_goals rw [hl]; decide

/-- Settles O17: both reset states have `Latch.idle`, which only a command replaces, and by a status that is not 7. -/
theorem idleTellsThatNoCommandCompleted : Obligations.IdleTellsThatNoCommandCompleted := by
  refine ⟨fun s rest h => ?_, fun p => ⟨rfl, rfl⟩, fun s t hno hstep hidle => ?_,
    fun s t rest hpres hstep => status_ne_idle_of_presenting hpres hstep⟩
  · exact ⟨_, _, _, step_reset h, step_read_of_some (f := .status) (v := 7) rfl rfl,
      step_read_of_some (f := .rvalid) (v := 0) rfl rfl, rfl, rfl, rfl⟩
  · exact (step_latch_of_not_present hno hstep).elim (·.trans hidle) id

end Sys2Proof.Claims
end
